-- ==== Sys2Proof/Word.lean ====
section
/-! DEFINITION. The two bit widths of the block: 32-bit words and 8-bit bytes (spec rule R6). -/

namespace Sys2Proof

/-- A 32-bit value: the CRC state, the polynomial, every table entry and every host register (R6). -/
abbrev Word := BitVec 32

/-- An 8-bit value: one byte of DATA or OUT (R6). -/
abbrev Byte := BitVec 8

/-- `M32`, the word of all ones (R9). -/
abbrev M32 : Word := 0xFFFFFFFF

end Sys2Proof
end

