-- ==== Sys2Proof/Syntax.lean ====
section
/-! DEFINITION. The four commands of the block (R83), and the notation of host programs (R87) with the
two reset events of R200 and R201. -/

namespace Sys2Proof

/-- The commands of the opcode map (R83): one constructor for each row of spec/opcode_table.json.
A command word carries no operand (R82): every operand is implicit. -/
inductive Instr where
  /-- BUILD: build FT and RT from POLY (R102). -/
  | build
  /-- CRC: checksum of `DATA[0:LEN]` (R123). -/
  | crc
  /-- FORGE.APPEND: forge a patch at the end of `DATA[0:LEN]` (R147). -/
  | forgeAppend
  /-- FORGE: forge a patch at offset POS (R146). -/
  | forge
  deriving DecidableEq, Repr

/-- A host variable of R87, by number. -/
abbrev HostVar := Nat

/-- A label of R87, by number. -/
abbrev Label := Nat

/-- Host expressions (R87): numerals, host variables, `+` and `-` on integers, and the bit slice `h[hi:lo]`. -/
inductive HostExpr where
  | num (v : Int)
  | var (h : HostVar)
  | add (a b : HostExpr)
  | sub (a b : HostExpr)
  | slice (h : HostVar) (hi lo : Nat)
  deriving DecidableEq, Repr

/-- Host operations (R87), and the reset input as the host drives it (R190).
A read or a write carries its width in bytes, so that an access of a width the block does not serve
(R59: 2 bytes, 8 bytes) can be written down too; the notation's own four are `wr32`, `wr8`, `rd32`, `rd8` below (log entry 18). -/
inductive HostOp where
  /-- `MemWrite(off, width, v)`. -/
  | wr (width : Nat) (off v : HostExpr)
  /-- `h <- MemRead(off, width)`. -/
  | rd (width : Nat) (off : HostExpr) (h : HostVar)
  /-- `SET h <- e`. -/
  | set (h : HostVar) (e : HostExpr)
  /-- `IF e1 == e2 GOTO l`. -/
  | ifEq (e1 e2 : HostExpr) (l : Label)
  /-- `IF e1 != e2 GOTO l`. -/
  | ifNe (e1 e2 : HostExpr) (l : Label)
  /-- `GOTO l`. -/
  | goto (l : Label)
  /-- `HALT`. -/
  | halt
  /-- The reset input is asserted and released between two accesses (R200, R190; log entry 10). -/
  | reset
  /-- A CMD write of `v` whose command a reset abandons before it completes (R201). -/
  | resetDuring (v : HostExpr)
  deriving DecidableEq, Repr

/-- `WR32 off, v` (R87). -/
abbrev HostOp.wr32 (off v : HostExpr) : HostOp := .wr 4 off v
/-- `WR8 off, v` (R87). -/
abbrev HostOp.wr8 (off v : HostExpr) : HostOp := .wr 1 off v
/-- `RD32 off -> h` (R87). -/
abbrev HostOp.rd32 (off : HostExpr) (h : HostVar) : HostOp := .rd 4 off h
/-- `RD8 off -> h` (R87). -/
abbrev HostOp.rd8 (off : HostExpr) (h : HostVar) : HostOp := .rd 1 off h

/-- One line of a host program: an operation, with the label that names it if there is one (R87). DESIGN CHOICE: a
line carries at most one label; R87 does not say whether two may name one operation (log entry 22). -/
structure HostLine where
  label : Option Label
  op : HostOp
  deriving DecidableEq, Repr

end Sys2Proof
end

