-- ==== Sys2Proof/Decode.lean ====
section
/-! DEFINITION. The command word: its fields (R81), decoding (R84, total), and the encoder (R83). -/

namespace Sys2Proof

/-- OP, bits 3:0 of a command word (R81). -/
def opField (w : Word) : BitVec 4 := w.extractLsb' 0 4

/-- P, bit 4 of a command word: the position-present flag (R81). -/
def pField (w : Word) : Bool := w.getLsbD 4

/-- RSVD, bits 31:5 of a command word: reserved, must be 0 (R81). -/
def rsvdField (w : Word) : BitVec 27 := w.extractLsb' 5 27

/-- Why a word is illegal: the three kinds of R85. -/
inductive IllegalWord where
  /-- A RSVD bit is set. -/
  | reservedBits
  /-- OP is `0x0` or `0x4` to `0xF`. -/
  | reservedOp
  /-- P is 1 and OP is not `0x3`. -/
  | positionFlag
  deriving DecidableEq, Repr

/-- The outcome of decoding (R84): a command, or ILLEGAL with the kind of R85 that rules the word out. -/
inductive Decoded where
  | command (i : Instr)
  | illegal (why : IllegalWord)
  deriving DecidableEq, Repr

/-- Which kind of R85 an undecodable word falls under (RSVD looked at first, then OP; log entry 16). -/
def illegalKind (w : Word) : IllegalWord :=
  if rsvdField w ≠ 0 then .reservedBits
  else if opField w = 1 ∨ opField w = 2 ∨ opField w = 3 then .positionFlag
  else .reservedOp

/-- Decoding a command word, by whole words as R84 has it. Total: every word is a command or ILLEGAL. -/
def decode (w : Word) : Decoded :=
  if w = 0x00000001 then .command .build
  else if w = 0x00000002 then .command .crc
  else if w = 0x00000003 then .command .forgeAppend
  else if w = 0x00000013 then .command .forge
  else .illegal (illegalKind w)

/-- The OP column of the opcode map (R83). -/
def opOf : Instr → BitVec 4
  | .build => 0x1
  | .crc => 0x2
  | .forgeAppend => 0x3
  | .forge => 0x3

/-- The P column of the opcode map (R83). -/
def pOf : Instr → Bool
  | .build | .crc | .forgeAppend => false
  | .forge => true

/-- The command word of a command: `RSVD = 0`, P and OP laid out as R81 has them. -/
def encode (i : Instr) : Word := 0#27 ++ BitVec.ofBool (pOf i) ++ opOf i

/-- The command the decoder reads from a word numbered as spec/opcode_table.json numbers it (one 32-bit word). -/
def decodeTableWord (nbits w : Nat) : Option Instr :=
  if nbits ≤ 32 ∧ w < 2 ^ 32 then
    match decode (BitVec.ofNat 32 w) with
    | .command i => some i
    | .illegal _ => none
  else none

end Sys2Proof
end

