-- ==== Sys2Proof/Config.lean ====
section
/-! DEFINITION. The open parameters of the spec (R7) and the values it leaves open in the host notation. -/

namespace Sys2Proof

/-- The value of the parameter MAXLEN (R7, D9: OPEN) that `State.reset` is an instance for: the largest legal one.
DESIGN CHOICE, unsafe for a claim about `State.reset` alone (log entry 1). MAXLEN itself is a field of State:
every operation reads that field, and `State.resetAt` is reset for any MAXLEN. -/
def Config.maxlen : Word := 0xFFFC

/-- The parameter BLOCK_BASE (R7, D34: OPEN, a platform matter). No body: nothing can rest on its value (log entry 13). -/
opaque Config.blockBase : Nat

/-- The parameter LATENCY (R7, D30: OPEN, "no rule depends on it"). No body, and no operation reads it (log entry 13). -/
opaque Config.latency : Nat

/-- Free value: what a host variable holds that no operation has assigned (log entry 5). -/
opaque Config.unsetHostVar : Nat → Int

/-- Free value: the word the 32-bit host port carries for a host value that is not a 32-bit number (log entry 6). -/
opaque Config.unfitWord : Int → Word

/-- Free value: the bits of a slice of a negative host value (log entry 7). -/
opaque Config.negativeSlice : Int → Nat → Nat → Nat

/-- Free value: a slice `h[hi:lo]` with `hi < lo`, which R9 gives no meaning (log entry 21). -/
opaque Config.upsideDownSlice : Int → Nat → Nat → Int

end Sys2Proof
end

