-- ==== Sys2Proof/Machine/Bytes.lean ====
section
/-! DEFINITION. The one byte order of the block: little-endian (R11, R57, R58). -/

namespace Sys2Proof.Machine

/-- `le_bytes(v)`: the four bytes of `v`, bits 7:0 first (R11). -/
def leBytes (v : Word) : List Byte :=
  [v.extractLsb' 0 8, v.extractLsb' 8 8, v.extractLsb' 16 8, v.extractLsb' 24 8]

/-- `le32(b0, b1, b2, b3)`: the word `b3:b2:b1:b0` (R11). -/
def le32 (b0 b1 b2 b3 : Byte) : Word := b3 ++ b2 ++ b1 ++ b0

/-- The low byte of a word, `v[7:0]` (R9). -/
def lowByte (v : Word) : Byte := v.extractLsb' 0 8

/-- The high byte of a word, `v[31:24]`, as an index (R140: `b >> 24`). -/
def highByte (v : Word) : Byte := v.extractLsb' 24 8

end Sys2Proof.Machine
end

