-- ==== Sys2Proof/Machine/Tables.lean ====
section
/-! DEFINITION. The table generators FTG and RTG: one-bit steps, entries and whole tables (R100, R101, R106). -/

namespace Sys2Proof.Machine

/-- A table file: 256 entries of 32 bits, indexed 0 to 255 (R32). -/
abbrev Table := Vector Word 256

/-- The one-bit forward step `f_p` (R106; the loop body of R100). -/
def fBit (p a : Word) : Word :=
  if a.getLsbD 0 then (a >>> 1) ^^^ p else a >>> 1

/-- The one-bit reverse step `g_p` (R106; the loop body of R101). The XOR with `p` comes before the shift
(conflict C1: the contract wins over the prose; log entry 17). -/
def gBit (p a : Word) : Word :=
  if a.getLsbD 31 then ((a ^^^ p) <<< 1) ||| 1 else a <<< 1

/-- `ft_entry(p, i)`: eight forward steps from `zext_32(i)` (R100). -/
def ftEntry (p : Word) (i : Byte) : Word := (fBit p)^[8] (i.setWidth 32)

/-- `rt_entry(p, i)`: eight reverse steps from `zext_32(i) << 24` (R101). -/
def rtEntry (p : Word) (i : Byte) : Word := (gBit p)^[8] (i.setWidth 32 <<< 24)

/-- The entries `e i, e (i+1), …`, `n` of them. -/
def entriesFrom (e : Byte → Word) : Nat → Nat → List Word
  | _, 0 => []
  | i, n + 1 => e (BitVec.ofNat 8 i) :: entriesFrom e (i + 1) n

theorem entriesFrom_length (e : Byte → Word) : ∀ i n, (entriesFrom e i n).length = n
  | _, 0 => rfl
  | i, n + 1 => by simp [entriesFrom, entriesFrom_length e (i + 1) n]

/-- The table of a function of the index. -/
def tableOf (e : Byte → Word) : Table := ⟨⟨entriesFrom e 0 256⟩, entriesFrom_length e 0 256⟩

/-- The forward table of a polynomial (R100, R102). -/
def ftTable (p : Word) : Table := tableOf (ftEntry p)

/-- The reverse table of a polynomial (R101, R102). -/
def rtTable (p : Word) : Table := tableOf (rtEntry p)

/-- Entry `i` of a table. An index is a byte, so no table access can miss (R75). -/
def entry (t : Table) (i : Byte) : Word := t[i.toNat]'i.isLt

end Sys2Proof.Machine
end

