-- ==== Sys2Proof/Machine/State.lean ====
section
/-! DEFINITION. The state of the block (R20) and of the one host that drives it (R87, R213), the reasons a step
stops, and the state after reset (R38, R200). -/

namespace Sys2Proof.Machine

/-- A byte buffer with its written marks: the pairs (index, byte) of the bytes written since reset, indices strictly
rising. An index that is not listed has a clear written mark and no value (R33, R34, D17; log entry 4). -/
abbrev Memory := List Host.Cell

/-- The host's side (R87): its program, its position in it, and its variables. It is the host's state, not the
block's (R21); the block sees only the accesses the program issues (log entry 2). -/
structure HostSide where
  /-- The host program: a list of operations, each with its label if it has one (R87). -/
  program : List HostLine
  /-- The host's position in its own list (R21). -/
  position : Nat
  /-- The host variables that have been assigned, by number, strictly rising. -/
  vars : List (Nat × Int)
  deriving DecidableEq, Repr

/-- Everything the spec gives the machine (R20), and the host beside it. CMD stores nothing (R26), and the internal
datapath registers of R36 exist only while a command runs, so neither is a field. -/
structure State where
  /-- POLY (R22). -/
  poly : Word
  /-- LEN (R23). -/
  len : Word
  /-- POS (R24). -/
  pos : Word
  /-- WANTED (R25). -/
  wanted : Word
  /-- STATUS.ERR, bits 3:0 of STATUS (R27); bits 31:4 read as 0. -/
  err : BitVec 4
  /-- RESULT (R28). -/
  result : Word
  /-- PATCH (R29). -/
  patch : Word
  /-- OUTLEN (R30). -/
  outlen : Word
  /-- MAXLEN: hardwired to the parameter MAXLEN (R31, R7). No operation writes it. -/
  maxlen : Word
  /-- FT, the forward table file (R32). -/
  ft : Table
  /-- RT, the reverse table file (R32). -/
  rt : Table
  /-- TPOLY: the polynomial the tables were last built from (R37; log entry 3). Nothing reads it. -/
  tpoly : Word
  /-- DATA with its written marks (R33). -/
  data : Memory
  /-- OUT with its written marks (R34). -/
  out : Memory
  /-- The host's side (R87). -/
  host : HostSide
  deriving DecidableEq, Repr

/-- Why a run has no result (R170 kind 3, R178, R179): the spec's two model faults. -/
inductive Fault where
  /-- `fault HostBusError(a)`: raised by a host access that R59 does not admit. Safe: the block answers it with an
  error response and changes nothing (R63), and the model stops (log entry 19). -/
  | hostBusError (offset : Int)
  /-- `fault UnwrittenRead(a)`: raised by a host read, or by an engine read during CRC, FORGE or FORGE.APPEND, of a
  DATA or OUT byte with a clear written mark (R33, R34, R60, R74). Safe: the model stops. -/
  | unwrittenRead (offset : Nat)
  deriving DecidableEq, Repr

/-- Why the model gives no meaning. -/
inductive Refusal where
  /-- Raised by the arm of an instruction that has no meaning yet. No arm of this model raises it. Safe. -/
  | notModelled (mnemonic : String)
  /-- Raised by a host jump whose label names no line: the program is not one of R87
  (log entry 12). Safe. -/
  | undefinedLabel (l : Nat)
  deriving DecidableEq, Repr

/-- The state right after reset of a block with parameter MAXLEN = `m` (R38, R200): the tables are those of the
default polynomial, and every written mark is clear. No host program is placed (log entry 9). -/
def State.resetAt (m : Word) : State where
  poly := 0x82F63B78
  len := 0
  pos := 0
  wanted := 0
  err := 0
  result := 0
  patch := 0
  outlen := 0
  maxlen := m
  ft := ftTable 0x82F63B78
  rt := rtTable 0x82F63B78
  tpoly := 0x82F63B78
  data := []
  out := []
  host := { program := [], position := 0, vars := [] }

/-- The state right after reset, with MAXLEN at the value of Config (log entry 1). -/
def State.reset : State := State.resetAt Config.maxlen

end Sys2Proof.Machine
end

