-- ==== Sys2Proof/Machine/Flags.lean ====
section
/-! DEFINITION. The block's one status field, STATUS.ERR: its codes and the STATUS word (R27, R35, R171). -/

namespace Sys2Proof.Machine

/-- The STATUS.ERR codes (R171). -/
inductive ErrCode where
  | ok
  | invalidArgument
  | illegalCommand
  | lengthOutOfRange
  deriving DecidableEq, Repr

/-- The number of a code (R171). Codes 4 to 15 are never produced. -/
def errBits : ErrCode → BitVec 4
  | .ok => 0
  | .invalidArgument => 1
  | .illegalCommand => 2
  | .lengthOutOfRange => 3

/-- The STATUS register as the host reads it: ERR in bits 3:0, bits 31:4 zero (R27). -/
def statusWord (s : State) : Word := s.err.setWidth 32

end Sys2Proof.Machine
end

