-- ==== Sys2Proof/Machine/Ops.lean ====
section
/-! DEFINITION. The named operations over memory and registers: sorted association lists, the byte buffers, the
writes a command makes, raising a command error (R172), completing a command (R173), and reset (R200). -/

namespace Sys2Proof.Machine

/-- The value at key `a` of an association list. -/
def getAt {α : Type} : List (Nat × α) → Nat → Option α
  | [], _ => none
  | (b, v) :: t, a => if a = b then some v else getAt t a

/-- Store `v` at key `a`, keeping the keys rising. -/
def putAt {α : Type} : List (Nat × α) → Nat → α → List (Nat × α)
  | [], a, v => [(a, v)]
  | (b, w) :: t, a, v =>
    if a < b then (a, v) :: (b, w) :: t
    else if a = b then (a, v) :: t
    else (b, w) :: putAt t a v

/-- The keys are strictly rising: the canonical form. -/
def rising {α : Type} : List (Nat × α) → Bool
  | [] => true
  | [_] => true
  | x :: y :: t => decide (x.1 < y.1) && rising (y :: t)

/-- What an index reads as: its byte, or `none` where its written mark is clear. An index that is not listed has no
value (R33, R34), so a read of it faults. -/
def Memory.read (m : Memory) (i : Nat) : Option Byte := getAt m i

/-- Write one byte and set its written mark (R33). -/
def Memory.write (m : Memory) (i : Nat) (v : Byte) : Memory := putAt m i v

/-- Write consecutive bytes from index `i` and set their marks. -/
def Memory.writeBytes (m : Memory) (i : Nat) : List Byte → Memory
  | [] => m
  | v :: t => Memory.writeBytes (m.write i v) (i + 1) t

/-- The canonical form of a buffer: indices strictly rising (no entry can equal what an unlisted index reads as,
which is no value at all). -/
def Memory.wf (m : Memory) : Bool := rising m

/-- Every listed index is below `n`: the buffer holds `n` bytes (R33, R34). -/
def Memory.within (m : Memory) (n : Nat) : Bool := m.all fun c => decide (c.1 < n)

/-- The offset of `DATA[0]` (R55). -/
def dataBase : Nat := 0x10000

/-- The offset of `OUT[0]` (R56). -/
def outBase : Nat := 0x20000

/-- The end of a command that passes its checks, after all of its other writes: `x[STATUS].ERR <- 0` (R173). -/
def State.complete (s : State) : State := { s with err := errBits .ok }

/-- `raise CmdError(code)`: the one operation by which a command ends in an error (R172, R181). It writes the code to
STATUS.ERR and nothing else, and the host goes on: no trap is taken, nothing is saved, and there is no return (R182). -/
def raiseCmdError (code : ErrCode) (s : State) : Host.Outcome State Fault Refusal :=
  .next { s with err := errBits code }

/-- BUILD's writes: every entry of FT and RT from polynomial `p`, which becomes TPOLY (R102, R37). -/
def State.buildTables (s : State) (p : Word) : State :=
  { s with ft := ftTable p, rt := rtTable p, tpoly := p }

/-- CRC's write: RESULT (R123, R28). -/
def State.setResult (s : State) (v : Word) : State := { s with result := v }

/-- FORGE's writes: `OUT[0:len(o)]` with their marks, PATCH and OUTLEN (R146, D21). -/
def State.setForged (s : State) (o : List Byte) (patch outlen : Word) : State :=
  { s with out := s.out.writeBytes 0 o, patch := patch, outlen := outlen }

/-- Reset released (R200): every element of the block's state at its reset value; MAXLEN is hardwired, and the
host's own state is not the block's (log entry 10). -/
def State.blockReset (s : State) : State := { State.resetAt s.maxlen with host := s.host }

end Sys2Proof.Machine
end

