-- ==== Sys2Proof/Machine/Operands.lean ====
section
/-! DEFINITION. The implicit operands of the commands (R82): LEN and POS with their checks, and the engine's reads of
`DATA[0:LEN]` (R73, R74). -/

namespace Sys2Proof.Machine

/-- The length check: `LEN > MAXLEN` (R175). -/
def State.lenTooLong (s : State) : Bool := decide (s.maxlen.toNat < s.len.toNat)

/-- The position check: `POS > LEN` (R148, R176). -/
def State.posPastEnd (s : State) : Bool := decide (s.len.toNat < s.pos.toNat)

/-- Engine reads in increasing index order: `m[j], m[j+1], …`, `n` of them; the index of the first unwritten byte
met, if there is one (R73, R74). -/
def readUp (m : Memory) : Nat → Nat → Except Nat (List Byte)
  | _, 0 => .ok []
  | j, n + 1 =>
    match m.read j with
    | none => .error j
    | some c =>
      match readUp m (j + 1) n with
      | .error k => .error k
      | .ok t => .ok (c :: t)

/-- Engine reads in decreasing index order: `m[lo+n-1], …, m[lo]`; the bytes are answered in index order, and the
first unwritten byte met is the one with the highest index (R73: the suffix is read in decreasing order; log entry 11). -/
def readDown (m : Memory) (lo : Nat) : Nat → Except Nat (List Byte)
  | 0 => .ok []
  | n + 1 =>
    match m.read (lo + n) with
    | none => .error (lo + n)
    | some c =>
      match readDown m lo n with
      | .error k => .error k
      | .ok t => .ok (t ++ [c])

/-- The model fault of an engine read of the unwritten byte `DATA[j]` (R74). -/
def engineFault (j : Nat) : Host.Outcome State Fault Refusal := .fault (.unwrittenRead (dataBase + j))

end Sys2Proof.Machine
end

