-- ==== Sys2Proof/Machine/Accumulator.lean ====
section
/-! DEFINITION. The reflected CRC32 accumulator ACC and the CRC command (R120 to R123). -/

namespace Sys2Proof.Machine

/-- `fstep(s, c)`: one forward byte step through FT (R120). -/
def fstep (ft : Table) (s : Word) (c : Byte) : Word :=
  (s >>> 8) ^^^ entry ft (lowByte (s ^^^ c.setWidth 32))

/-- `crc_raw(x, seq)`: the recurrence from raw state `x`, no complement at either end (R121). -/
def crcRaw (ft : Table) (x : Word) : List Byte → Word
  | [] => x
  | c :: t => crcRaw ft (fstep ft x c) t

/-- `crc32(seq)`: the checksum under FT (R122). -/
def crc32 (ft : Table) (seq : List Byte) : Word := crcRaw ft M32 seq ^^^ M32

/-- CRC: checksum of `DATA[0:LEN]` under whatever FT holds (R123). -/
def execCrc (s : State) : Host.Outcome State Fault Refusal :=
  if s.lenTooLong then raiseCmdError .lengthOutOfRange s
  else
    match readUp s.data 0 s.len.toNat with
    | .error j => engineFault j
    | .ok seq => .next (s.setResult (crc32 s.ft seq)).complete

end Sys2Proof.Machine
end

