-- ==== Sys2Proof/Machine/Forge.lean ====
section
/-! DEFINITION. The inversion/forgery engine INV and the FORGE and FORGE.APPEND commands (R140 to R147). -/

namespace Sys2Proof.Machine

/-- `rstep(b, c)`: undo one forward byte step, through RT; the index is taken from `b` before the shift (R140). -/
def rstep (rt : Table) (b : Word) (c : Byte) : Word :=
  ((b <<< 8) ^^^ entry rt (highByte b)) ^^^ c.setWidth 32

/-- The reverse recurrence over a sequence, last byte first (R142, R143). -/
def backRun (rt : Table) (b : Word) : List Byte → Word
  | [] => b
  | c :: t => rstep rt (backRun rt b t) c

/-- `forge_patch(w, s, pos)`: the three phases (R144). -/
def forgePatch (ft rt : Table) (w : Word) (s : List Byte) (pos : Nat) : Word :=
  let fwd := crcRaw ft M32 (s.take pos)
  let bkd := backRun rt (w ^^^ M32) (s.drop pos)
  backRun rt bkd (leBytes fwd)

/-- The prefix, the four bytes of a patch, and the suffix (R144, step 4). -/
def splice (s : List Byte) (pos : Nat) (patch : Word) : List Byte :=
  s.take pos ++ leBytes patch ++ s.drop pos

/-- `forge_out(w, s, pos)` (R144). -/
def forgeOut (ft rt : Table) (w : Word) (s : List Byte) (pos : Nat) : List Byte :=
  splice s pos (forgePatch ft rt w s pos)

/-- The steps of R146 from `w <- x[WANTED]` on, for a length and a position that have passed the checks: the prefix is
read upwards, the suffix downwards, and then OUT, PATCH, OUTLEN and ERR are written (`n + 4` fits 32 bits for every legal MAXLEN; log entry 20). -/
def forgeAt (s : State) (n pos : Nat) : Host.Outcome State Fault Refusal :=
  match readUp s.data 0 pos with
  | .error j => engineFault j
  | .ok pre =>
    match readDown s.data pos (n - pos) with
    | .error j => engineFault j
    | .ok suf =>
      let patch := forgePatch s.ft s.rt s.wanted (pre ++ suf) pos
      .next (s.setForged (splice (pre ++ suf) pos patch) patch (BitVec.ofNat 32 (n + 4))).complete

/-- FORGE: forge a patch at offset POS; the length is checked before the position (R146, R177). -/
def execForge (s : State) : Host.Outcome State Fault Refusal :=
  if s.lenTooLong then raiseCmdError .lengthOutOfRange s
  else if s.posPastEnd then raiseCmdError .invalidArgument s
  else forgeAt s s.len.toNat s.pos.toNat

/-- FORGE.APPEND: forge a patch at the end; POS is not read (R147). -/
def execForgeAppend (s : State) : Host.Outcome State Fault Refusal :=
  if s.lenTooLong then raiseCmdError .lengthOutOfRange s
  else forgeAt s s.len.toNat s.len.toNat

end Sys2Proof.Machine
end

