-- ==== Sys2Proof/Machine/TableGen.lean ====
section
/-! DEFINITION. The BUILD command (R102 to R105). -/

namespace Sys2Proof.Machine

/-- BUILD: build FT and RT from POLY. It has no check and no error (R102, R104). -/
def execBuild (s : State) : Host.Outcome State Fault Refusal :=
  .next (s.buildTables s.poly).complete

end Sys2Proof.Machine
end

