-- ==== Sys2Proof/Machine/Dispatch.lean ====
section
/-! DEFINITION. One arm for each command: its meaning (R84). -/

namespace Sys2Proof.Machine

def exec (i : Instr) (s : State) : Host.Outcome State Fault Refusal :=
  match i with
  | .build => Sys2Proof.Machine.execBuild s
  | .crc => Sys2Proof.Machine.execCrc s
  | .forgeAppend => Sys2Proof.Machine.execForgeAppend s
  | .forge => Sys2Proof.Machine.execForge s

end Sys2Proof.Machine
end

