-- ==== Sys2Proof/Machine/Port.lean ====
section
/-! DEFINITION. The host port: the address map (R50 to R56), the legal accesses (R59), reads (R60) and writes (R61). -/

namespace Sys2Proof.Machine

/-- The read-only registers (R51). -/
inductive RoReg where
  | status | result | patch | outlen | maxlen
  deriving DecidableEq, Repr

/-- The operand registers, which the host reads and writes (R51). -/
inductive RwReg where
  | poly | len | pos | wanted
  deriving DecidableEq, Repr

/-- What stands at an offset (R51 to R56). -/
inductive Region where
  | cmd
  | ro (r : RoReg)
  | rw (r : RwReg)
  | ft (i : Byte)
  | rt (i : Byte)
  | data (i : Nat)
  | out (i : Nat)
  | unmapped
  deriving DecidableEq, Repr

/-- The register window (R51). Every other offset below `0x400` is reserved (R54), or lies inside a register and is
reached by no legal access (R59). -/
def registerMap : List (Nat × Region) :=
  [(0x000, .cmd), (0x004, .ro .status), (0x008, .rw .poly), (0x00C, .rw .len), (0x010, .rw .pos),
   (0x014, .rw .wanted), (0x018, .ro .result), (0x01C, .ro .patch), (0x020, .ro .outlen), (0x024, .ro .maxlen)]

/-- The address map, for MAXLEN = `m` (R50 to R56). -/
def regionOf (m a : Nat) : Region :=
  if a < 0x400 then (getAt registerMap a).getD .unmapped
  else if a < 0x800 then .ft (BitVec.ofNat 8 ((a - 0x400) / 4))
  else if a < 0xC00 then .rt (BitVec.ofNat 8 ((a - 0x800) / 4))
  else if a < dataBase then .unmapped
  else if a < outBase then (if a - dataBase < m then .data (a - dataBase) else .unmapped)
  else if a < 0x30000 then (if a - outBase < m + 4 then .out (a - outBase) else .unmapped)
  else .unmapped

/-- One row of the table of legal accesses (R59). -/
structure AccessRow where
  width1 : Bool
  width4 : Bool
  read : Bool
  write : Bool
  deriving DecidableEq, Repr

/-- The table of legal accesses (R59), one row for each region. -/
def accessRow : Region → AccessRow
  | .cmd    => ⟨false, true, false, true⟩
  | .ro _   => ⟨false, true, true, false⟩
  | .rw _   => ⟨false, true, true, true⟩
  | .ft _   => ⟨false, true, true, false⟩
  | .rt _   => ⟨false, true, true, false⟩
  | .data _ => ⟨true, true, true, true⟩
  | .out _  => ⟨true, true, true, false⟩
  | .unmapped => ⟨false, false, false, false⟩

/-- Width and alignment: one byte anywhere, or four bytes at a multiple of 4 (R59, R62). -/
def widthOk (r : AccessRow) (a n : Nat) : Bool :=
  (n == 1 && r.width1) || (n == 4 && r.width4 && a % 4 == 0)

/-- A legal read of `n` bytes at offset `a` (R59). -/
def readOk (m a n : Nat) : Bool :=
  widthOk (accessRow (regionOf m a)) a n && (accessRow (regionOf m a)).read

/-- A legal write of `n` bytes at offset `a` (R59). -/
def writeOk (m a n : Nat) : Bool :=
  widthOk (accessRow (regionOf m a)) a n && (accessRow (regionOf m a)).write

/-- The value of a read-only register (R27 to R31). -/
def readRo (s : State) : RoReg → Word
  | .status => statusWord s
  | .result => s.result
  | .patch => s.patch
  | .outlen => s.outlen
  | .maxlen => s.maxlen

/-- The value of an operand register (R22 to R25). -/
def readRw (s : State) : RwReg → Word
  | .poly => s.poly
  | .len => s.len
  | .pos => s.pos
  | .wanted => s.wanted

/-- A write to an operand register stores the value unchanged and has no other effect (R22 to R25, R61). -/
def writeRw (s : State) (v : Word) : RwReg → State
  | .poly => { s with poly := v }
  | .len => { s with len := v }
  | .pos => { s with pos := v }
  | .wanted => { s with wanted := v }

/-- A 1-byte or 4-byte read of a buffer, little-endian; `none` where a byte it covers is unwritten (R57, R60). -/
def readBuffer (b : Memory) (i n : Nat) : Option Word :=
  if n = 1 then (b.read i).map fun c => c.setWidth 32
  else
    match b.read i, b.read (i + 1), b.read (i + 2), b.read (i + 3) with
    | some b0, some b1, some b2, some b3 => some (le32 b0 b1 b2 b3)
    | _, _, _, _ => none

/-- A buffer read at offset `a`, or the model fault at that offset (R60). -/
def bufferAnswer (a : Nat) : Option Word → Except Fault Word
  | some v => .ok v
  | none => .error (.unwrittenRead a)

/-- `MemRead(a, n)` (R60): the value, or the fault of an access that is not legal (R63) or covers an unwritten byte.
A read changes no state. -/
def memRead (s : State) (a n : Nat) : Except Fault Word :=
  if readOk s.maxlen.toNat a n then
    match regionOf s.maxlen.toNat a with
    | .ro r => .ok (readRo s r)
    | .rw r => .ok (readRw s r)
    | .ft i => .ok (entry s.ft i)
    | .rt i => .ok (entry s.rt i)
    | .data i => bufferAnswer a (readBuffer s.data i n)
    | .out i => bufferAnswer a (readBuffer s.out i n)
    | .cmd | .unmapped => .error (.hostBusError a)
  else .error (.hostBusError a)

/-- A write to the DATA window: `v[7:0]`, or the four bytes `le_bytes(v)` (R61). -/
def writeData (s : State) (i n : Nat) (v : Word) : State :=
  { s with data := if n = 1 then s.data.write i (lowByte v) else s.data.writeBytes i (leBytes v) }

/-- A CMD write: run the command the word encodes, to completion (R61, R84); a word that encodes none raises
ILLEGAL_COMMAND, the first check of every CMD write (R174). The word is not stored (R26). -/
def commandWrite (w : Word) (s : State) : Host.Outcome State Fault Refusal :=
  match decode w with
  | .command i => exec i s
  | .illegal _ => raiseCmdError .illegalCommand s

/-- `MemWrite(a, n, v)` (R61), or the fault of an access that is not legal (R63). -/
def memWrite (s : State) (a n : Nat) (v : Word) : Host.Outcome State Fault Refusal :=
  if writeOk s.maxlen.toNat a n then
    match regionOf s.maxlen.toNat a with
    | .cmd => commandWrite v s
    | .rw r => .next (writeRw s v r)
    | .data i => .next (writeData s i n v)
    | .ro _ | .ft _ | .rt _ | .out _ | .unmapped => .fault (.hostBusError a)
  else .fault (.hostBusError a)

end Sys2Proof.Machine
end

