-- ==== Sys2Proof/Machine/HostProgram.lean ====
section
/-! DEFINITION. The host: evaluating its expressions, and one operation of its program (R87, R213). -/

namespace Sys2Proof.Machine

/-- The value of a host variable; one that no operation has assigned holds a free value (log entry 5). -/
def hostVar (vars : List (Nat × Int)) (h : HostVar) : Int := (getAt vars h).getD (Config.unsetHostVar h)

/-- `v[hi:lo]` of a host value, an unsigned number of `hi-lo+1` bits (R9); for a negative value the bits are free
(log entry 7). DESIGN CHOICE: with `hi < lo` there is no such number of bits, R9 gives the slice no meaning, and its
value is free (log entry 21). -/
def hostSlice (v : Int) (hi lo : Nat) : Int :=
  if hi < lo then Config.upsideDownSlice v hi lo
  else
    match v with
    | .ofNat n => ((n >>> lo) % 2 ^ (hi + 1 - lo) : Nat)
    | .negSucc _ => (Config.negativeSlice v hi lo % 2 ^ (hi + 1 - lo) : Nat)

/-- The value of a host expression: exact integer arithmetic (R87, R10). -/
def evalExpr (vars : List (Nat × Int)) : HostExpr → Int
  | .num v => v
  | .var h => hostVar vars h
  | .add a b => evalExpr vars a + evalExpr vars b
  | .sub a b => evalExpr vars a - evalExpr vars b
  | .slice h hi lo => hostSlice (hostVar vars h) hi lo

/-- The word the port carries for a host value: the value itself where it is a 32-bit number, else a free value
(log entry 6). -/
def portWord (v : Int) : Word :=
  if 0 ≤ v ∧ v < 2 ^ 32 then BitVec.ofNat 32 v.toNat else Config.unfitWord v

/-- The value of an expression in a state. -/
def State.eval (s : State) (e : HostExpr) : Int := evalExpr s.host.vars e

/-- The host moves to position `k` of its program. -/
def State.goTo (s : State) (k : Nat) : State := { s with host := { s.host with position := k } }

/-- The host moves to its next operation. -/
def State.advance (s : State) : State := s.goTo (s.host.position + 1)

/-- Assign a host variable. -/
def State.setVar (s : State) (h : HostVar) (v : Int) : State :=
  { s with host := { s.host with vars := putAt s.host.vars h v } }

/-- The operation at the host's position; none past the last one (R213). -/
def State.currentOp (s : State) : Option HostOp := (s.host.program[s.host.position]?).map (·.op)

/-- The position of the first line a label names (R87). -/
def labelPosition : List HostLine → Label → Option Nat
  | [], _ => none
  | x :: t, l => if x.label = some l then some 0 else (labelPosition t l).map (· + 1)

/-- A host jump (R87). -/
def jump (s : State) (l : Label) : Host.Outcome State Fault Refusal :=
  match labelPosition s.host.program l with
  | some k => .next (s.goTo k)
  | none => .refused (.undefinedLabel l)

/-- After an access that completes, the host goes on with its next operation (R64). -/
def thenAdvance : Host.Outcome State Fault Refusal → Host.Outcome State Fault Refusal
  | .next s => .next s.advance
  | .fault f => .fault f
  | .refused r => .refused r

/-- A host write at an offset the host computed; a negative one is no offset of the block (R190, log entry 8). -/
def hostWrite (s : State) (n : Nat) (off : Int) (v : Word) : Host.Outcome State Fault Refusal :=
  match off with
  | .ofNat a => thenAdvance (memWrite s a n v)
  | .negSucc _ => .fault (.hostBusError off)

/-- A host read at an offset the host computed, into a host variable. -/
def hostRead (s : State) (n : Nat) (off : Int) (h : HostVar) : Host.Outcome State Fault Refusal :=
  match off with
  | .ofNat a =>
    match memRead s a n with
    | .ok v => .next (s.setVar h v.toNat).advance
    | .error f => .fault f
  | .negSucc _ => .fault (.hostBusError off)

/-- One operation of the host program (R87). HALT stays where it is: the program has ended, and the block idles
(R189, R213). A reset, alone or in the middle of a command, leaves the reset state (R200, R201). -/
def runOp (op : HostOp) (s : State) : Host.Outcome State Fault Refusal :=
  match op with
  | .wr n off v => hostWrite s n (s.eval off) (portWord (s.eval v))
  | .rd n off h => hostRead s n (s.eval off) h
  | .set h e => .next (s.setVar h (s.eval e)).advance
  | .ifEq a b l => if s.eval a = s.eval b then jump s l else .next s.advance
  | .ifNe a b l => if s.eval a ≠ s.eval b then jump s l else .next s.advance
  | .goto l => jump s l
  | .halt => .next s
  | .reset => .next s.blockReset.advance
  | .resetDuring _ => .next s.blockReset.advance

end Sys2Proof.Machine
end

