-- ==== Sys2Proof/Machine/Step.lean ====
section
/-! DEFINITION. One step: the host issues its next operation and the block completes it (R64, R67). -/

namespace Sys2Proof.Machine

/-- One step of the one ordered stream of host operations (R67): the operation at the host's position runs to
completion. When the program has ended the block is idle and holds its state (R189, R213). -/
def step (s : State) : Host.Outcome State Fault Refusal :=
  match s.currentOp with
  | some op => runOp op s
  | none => .next s

/-- `s` with a host program whose only operation is `WR32 CMD, w`, about to run: the very next step issues the
command word (R80; log entry 9). -/
def State.withFetchWord (s : State) (nbits w : Nat) : State :=
  { s with host := { s.host with
      program := [{ label := none, op := .wr32 (.num 0) (.num (w % 2 ^ nbits % 2 ^ 32 : Nat)) }],
      position := 0 } }

end Sys2Proof.Machine
end

