-- ==== Sys2Proof/Machine/Datapath.lean ====
section
/-! DEFINITION. What the internal datapath registers ACC, FWD and BKD hold while a command runs (R36), as the list of
their successive values, and the number of table steps a command takes (R160, R211). None of it is state: no command
leaves any of it behind (R36), and nothing in the machine reads it. -/

namespace Sys2Proof.Machine

/-- The values of ACC (or FWD) over a sequence: the start value, then the value after each byte (R121, R141). -/
def forwardTrace (ft : Table) (x : Word) : List Byte → List Word
  | [] => [x]
  | c :: t => x :: forwardTrace ft (fstep ft x c) t

/-- The values of BKD over bytes in the order they are fed: the start value, then the value after each byte. -/
def feedTrace (rt : Table) (b : Word) : List Byte → List Word
  | [] => [b]
  | c :: t => b :: feedTrace rt (rstep rt b c) t

/-- The values of ACC during a CRC over `seq` (R123). -/
def accTrace (ft : Table) (seq : List Byte) : List Word := forwardTrace ft M32 seq

/-- The values of FWD during phase 1 of a FORGE of `s` at `pos` (R141). -/
def fwdTrace (ft : Table) (s : List Byte) (pos : Nat) : List Word := forwardTrace ft M32 (s.take pos)

/-- The values of BKD during phases 2 and 3 (R142, R143): the suffix in reverse order, then the bytes of `fwd` from the
high one down. -/
def bkdTrace (ft rt : Table) (w : Word) (s : List Byte) (pos : Nat) : List Word :=
  feedTrace rt (w ^^^ M32) ((s.drop pos).reverse ++ (leBytes (crcRaw ft M32 (s.take pos))).reverse)

/-- The table steps of a CRC over `seq`: the changes of ACC (R211). -/
def crcTableSteps (ft : Table) (seq : List Byte) : Nat := (accTrace ft seq).length - 1

/-- The table steps of a FORGE of `s` at `pos`: the changes of FWD and of BKD (R160). -/
def forgeTableSteps (ft rt : Table) (w : Word) (s : List Byte) (pos : Nat) : Nat :=
  ((fwdTrace ft s pos).length - 1) + ((bkdTrace ft rt w s pos).length - 1)

end Sys2Proof.Machine
end

