-- ==== Sys2Proof/Machine/Library.lean ====
section
/-! DEFINITION. The command pseudo-instructions (R88) and the source's library calls (R89) as host programs. -/

namespace Sys2Proof.Machine

/-- A line with no label. -/
def plainLine (op : HostOp) : HostLine := { label := none, op := op }

/-- `WR32 off, v` with both given. -/
def wrLine (off : Nat) (v : Word) : HostLine := plainLine (.wr32 (.num off) (.num v.toNat))

/-- `RD32 off -> h` with the offset given. -/
def rdLine (off : Nat) (h : HostVar) : HostLine := plainLine (.rd32 (.num off) h)

/-- A command pseudo-instruction: the CMD write of the command's word (R88). -/
def commandLine (i : Instr) : HostLine := wrLine 0x000 (encode i)

/-- `WR8 DATA+j, data[j]`, from `j` on (R89). DESIGN CHOICE: R89 also lets the writes be 4-byte ones, and the calls here
always use WR8 (log entry 23). -/
def loadData (j : Nat) : List Byte → List HostLine
  | [] => []
  | c :: t => plainLine (.wr8 (.num (dataBase + j : Nat)) (.num c.toNat)) :: loadData (j + 1) t

/-- `RD32 base+4*i -> h+i` for `n` entries from the `i`th (R89); that they go to consecutive variables is log
entry 26. -/
def readTable (base : Nat) (h : HostVar) : Nat → Nat → List HostLine
  | _, 0 => []
  | i, n + 1 => rdLine (base + 4 * i) (h + i) :: readTable base h (i + 1) n

/-- `RD8 OUT+j -> h+j` for `n` bytes from the `j`th (R89); that they go to consecutive variables is log entry 26. -/
def readOut (h : HostVar) : Nat → Nat → List HostLine
  | _, 0 => []
  | j, n + 1 => plainLine (.rd8 (.num (outBase + j : Nat)) (h + j)) :: readOut h (j + 1) n

/-- `build_tables(p)` (R89): `e` receives STATUS, and the variables from `f` and from `r` on receive FT and RT. DESIGN
CHOICE: R89 does not say whether the reads of the two tables interleave, and the call reads all of FT, then all of RT
(log entry 25). -/
def callBuildTables (p : Word) (e f r : HostVar) : List HostLine :=
  [wrLine 0x008 p, commandLine .build, rdLine 0x004 e] ++ readTable 0x400 f 0 256 ++ readTable 0x800 r 0 256

/-- `crc32(data)` (R89): `e` receives STATUS and `r` the checksum. -/
def callCrc32 (data : List Byte) (e r : HostVar) : List HostLine :=
  loadData 0 data ++
    [wrLine 0x00C (BitVec.ofNat 32 data.length), commandLine .crc, rdLine 0x004 e, rdLine 0x018 r]

/-- The command part of `forge`: FORGE at a given position, or FORGE.APPEND (R89). -/
def forgeCommand : Option Word → List HostLine
  | some pos => [wrLine 0x010 pos, commandLine .forge]
  | none => [commandLine .forgeAppend]

/-- `forge(wanted, data, pos)` (R89): `e` receives STATUS; where it is 0, the variables from `o` on receive
`OUT[0:n+4]`, and the host goes on behind the call. DESIGN CHOICE: R89 gives no operation for the case `e = 1`; the call
then jumps to `fail`, a label of the caller's (log entry 24). -/
def callForge (wanted : Word) (data : List Byte) (pos : Option Word) (e o : HostVar) (fail : Label) : List HostLine :=
  loadData 0 data ++
    [wrLine 0x00C (BitVec.ofNat 32 data.length), wrLine 0x014 wanted] ++ forgeCommand pos ++
    [rdLine 0x004 e, plainLine (.ifNe (.var e) (.num 0) fail)] ++ readOut o 0 (data.length + 4)

end Sys2Proof.Machine
end

