-- ==== Sys2Proof/Machine/Platform.lean ====
section
/-! DEFINITION. The block in a system: a memory-mapped device at BLOCK_BASE (R7, R50, R186). -/

namespace Sys2Proof.Machine

/-- The system address of a block offset (R7: every offset is relative to BLOCK_BASE). -/
def systemAddress (off : Nat) : Nat := Config.blockBase + off

/-- The block offset of a system address; none below BLOCK_BASE, where the block does not stand. -/
def blockOffset (addr : Nat) : Option Nat :=
  if Config.blockBase ≤ addr then some (addr - Config.blockBase) else none

/-- A read at a system address, where it reaches the block at all. -/
def systemRead (s : State) (addr n : Nat) : Option (Except Fault Word) :=
  (blockOffset addr).map fun a => memRead s a n

/-- A write at a system address, where it reaches the block at all. -/
def systemWrite (s : State) (addr n : Nat) (v : Word) : Option (Host.Outcome State Fault Refusal) :=
  (blockOffset addr).map fun a => memWrite s a n v

end Sys2Proof.Machine
end

