-- ==== Sys2Proof/WellFormed.lean ====
section
/-! DEFINITION. What is well formed: a command, the parameter MAXLEN, a host expression, a host program. -/

namespace Sys2Proof

/-- Every command is well formed: a command word carries no immediate, register number or address (R82),
so the syntax has nothing to check. -/
def Instr.wf : Instr → Bool
  | .build | .crc | .forgeAppend | .forge => true

/-- The constraint on the parameter MAXLEN (R7): `4 <= MAXLEN <= 0xFFFC` and `MAXLEN mod 4 = 0`. -/
def maxlenLegal (m : Word) : Bool :=
  decide (4 ≤ m.toNat) && decide (m.toNat ≤ 0xFFFC) && decide (m.toNat % 4 = 0)

/-- A slice `h[hi:lo]` has `lo <= hi` (R9: a field of `hi-lo+1` bits; what an ill-formed one evaluates to is log
entry 21). -/
def HostExpr.wf : HostExpr → Bool
  | .num _ | .var _ => true
  | .add a b | .sub a b => a.wf && b.wf
  | .slice _ hi lo => decide (lo ≤ hi)

/-- The label an operation jumps to, if it is a jump. -/
def HostOp.target? : HostOp → Option Label
  | .ifEq _ _ l | .ifNe _ _ l | .goto l => some l
  | .wr _ _ _ | .rd _ _ _ | .set _ _ | .halt | .reset | .resetDuring _ => none

/-- Every expression of an operation is well formed. -/
def HostOp.wf : HostOp → Bool
  | .wr _ off v => off.wf && v.wf
  | .rd _ off _ => off.wf
  | .set _ e => e.wf
  | .ifEq a b _ | .ifNe a b _ => a.wf && b.wf
  | .goto _ | .halt | .reset => true
  | .resetDuring v => v.wf

/-- A host program is well formed when its operations are, no label names two lines, and every jump's
label names a line (R87). -/
def programWf (p : List HostLine) : Bool :=
  let labels := p.filterMap (·.label)
  p.all (fun line => line.op.wf) && decide labels.Nodup &&
    (p.filterMap (·.op.target?)).all (fun l => labels.contains l)

end Sys2Proof
end

