-- ==== Sys2Proof/Safety.lean ====
section
/-! DEFINITION. The terms claims use: the invariant, when a command runs normally, the legal accesses spelled out, the
conventional CRC algorithm, and safe runs. -/

namespace Sys2Proof.Machine

/-- FT and RT are the tables of TPOLY (R37). -/
def State.TablesMatch (s : State) : Prop := s.ft = ftTable s.tpoly ∧ s.rt = rtTable s.tpoly

/-- TPOLY has bit 31 set: the premise of the round trip (R155, R158). -/
def State.Reversible (s : State) : Prop := s.tpoly.getLsbD 31 = true

/-- OUTLEN is 0, or `4 <= OUTLEN <= MAXLEN + 4` (R30). -/
def State.OutlenLegal (s : State) : Prop :=
  s.outlen = 0 ∨ (4 ≤ s.outlen.toNat ∧ s.outlen.toNat ≤ s.maxlen.toNat + 4)

/-- The invariant of the block: MAXLEN is a legal parameter (R7), the buffers are canonical and within their capacity
(R33, R34), the tables are those of TPOLY (R37), ERR is one of the four codes (R171), OUTLEN is legal (R30), and the
bytes `OUT[0:OUTLEN]` are written (R34); and the host's variables are listed in their canonical form. -/
structure State.Inv (s : State) : Prop where
  maxlen : maxlenLegal s.maxlen = true
  dataWf : s.data.wf = true
  outWf : s.out.wf = true
  dataWithin : s.data.within s.maxlen.toNat = true
  outWithin : s.out.within (s.maxlen.toNat + 4) = true
  tables : s.TablesMatch
  err : s.err.toNat ≤ 3
  outlen : s.OutlenLegal
  outWritten : ∀ j, j < s.outlen.toNat → s.out.read j ≠ none
  hostVars : rising s.host.vars = true

/-- `seq` is `DATA[0:LEN]`, every byte of it written (R33). -/
def State.DataIs (s : State) (seq : List Byte) : Prop :=
  seq.length = s.len.toNat ∧ ∀ j, j < s.len.toNat → s.data.read j = seq[j]?

/-- The condition under which a command runs its own effect (R102, R123, R146, R147): `LEN <= MAXLEN` and every byte
of `DATA[0:LEN]` written, for all but BUILD; and `POS <= LEN` for FORGE. -/
def Ready (i : Instr) (s : State) : Prop :=
  match i with
  | .build => True
  | .crc | .forgeAppend => s.len.toNat ≤ s.maxlen.toNat ∧ ∀ j, j < s.len.toNat → s.data.read j ≠ none
  | .forge =>
    s.len.toNat ≤ s.maxlen.toNat ∧ s.pos.toNat ≤ s.len.toNat ∧ ∀ j, j < s.len.toNat → s.data.read j ≠ none

/-- The position a forge command works at: POS for FORGE, LEN for FORGE.APPEND (R146, R147). -/
def forgePos (i : Instr) (s : State) : Nat :=
  match i with
  | .forge => s.pos.toNat
  | .build | .crc | .forgeAppend => s.len.toNat

/-- A forge command. -/
def IsForge (i : Instr) : Prop := i = .forge ∨ i = .forgeAppend

/-- The bytes of the mapped part of DATA (R55). -/
def InData (m a : Nat) : Prop := 0x10000 ≤ a ∧ a < 0x10000 + m
/-- The bytes of the mapped part of OUT (R56). -/
def InOut (m a : Nat) : Prop := 0x20000 ≤ a ∧ a < 0x20000 + m + 4

/-- The legal reads of R59, spelled out: four aligned bytes of STATUS to MAXLEN, of the two table windows, or of a
buffer; or one byte of a buffer. -/
def LegalRead (m a n : Nat) : Prop :=
  (n = 4 ∧ a % 4 = 0 ∧ ((0x004 ≤ a ∧ a < 0x028) ∨ (0x400 ≤ a ∧ a < 0xC00) ∨ InData m a ∨ InOut m a)) ∨
    (n = 1 ∧ (InData m a ∨ InOut m a))

/-- The legal writes of R59, spelled out: four aligned bytes of CMD, of POLY to WANTED, or of DATA; or one byte of
DATA. -/
def LegalWrite (m a n : Nat) : Prop :=
  (n = 4 ∧ a % 4 = 0 ∧ (a = 0x000 ∨ (0x008 ≤ a ∧ a < 0x018) ∨ InData m a)) ∨ (n = 1 ∧ InData m a)

/-- STATUS.ERR after a CMD write of `w` that completes: the first error of R177 that applies, else OK. -/
def errAfter (w : Word) (s : State) : ErrCode :=
  match decode w with
  | .illegal _ => .illegalCommand
  | .command .build => .ok
  | .command .crc | .command .forgeAppend =>
    if s.maxlen.toNat < s.len.toNat then .lengthOutOfRange else .ok
  | .command .forge =>
    if s.maxlen.toNat < s.len.toNat then .lengthOutOfRange
    else if s.len.toNat < s.pos.toNat then .invalidArgument else .ok

/-- One bit of the conventional reflected CRC shift register (R14, R125): the low bit of the state, XORed with the
message bit, decides whether the polynomial is XORed in. PRESUMED (log entry 15). -/
def registerBit (p s : Word) (b : Bool) : Word :=
  if (s.getLsbD 0) ^^ b then (s >>> 1) ^^^ p else s >>> 1

/-- The message bits of a byte, the least significant first (R14: "processes bytes least-significant-bit-first"). -/
def byteBits (c : Byte) : List Bool :=
  [c.getLsbD 0, c.getLsbD 1, c.getLsbD 2, c.getLsbD 3, c.getLsbD 4, c.getLsbD 5, c.getLsbD 6, c.getLsbD 7]

/-- The conventional reflected CRC-32 of a message, bit by bit and with no table (R125). PRESUMED: R125 names the
algorithm and does not write it out (log entry 15). -/
def bitwiseCrc (p : Word) (seq : List Byte) : Word :=
  (seq.flatMap byteBits).foldl (registerBit p) M32 ^^^ M32

/-- The host's current operation is `WR32 CMD, w`: a four-byte write at offset 0 whose value puts `w` on the port
(R80). -/
def State.Issues (s : State) (w : Word) : Prop :=
  ∃ off v, s.currentOp = some (.wr32 off v) ∧ s.eval off = 0 ∧ portWord (s.eval v) = w

/-- The host's current operation resets the block (R200, R201). -/
def State.Resets (s : State) : Prop :=
  s.currentOp = some .reset ∨ ∃ v, s.currentOp = some (.resetDuring v)

/-- The block's own state, without the host's: two states with equal blocks differ at most in `host`. -/
def SameBlock (s t : State) : Prop := t = { s with host := t.host }

/-- A safe run: `k` steps that meet no model fault and no refusal (R179). -/
def SafeRun (k : Nat) (s : State) : Prop := ∃ t, Host.Core.run Sys2Proof.core k s = .next t

/-- The state an outcome answers, if it answers one. -/
def nextState? : Host.Outcome State Fault Refusal → Option State
  | .next s => some s
  | .fault _ => none
  | .refused _ => none

/-- The fault an outcome answers, if it answers one. -/
def fault? : Host.Outcome State Fault Refusal → Option Fault
  | .next _ => none
  | .fault f => some f
  | .refused _ => none

end Sys2Proof.Machine
end

