-- ==== Sys2Proof/Certificates/Slice0/Obligations.lean ====
section
/-! DEFINITION. The statements for the provers, one definition each. -/

open Sys2Proof Sys2Proof.Machine

/-! ### The command word -/

/-- The worked words of the opcode map (R83) and of the table of decoded words (95_test_vectors.md V-E1). -/
def Obligations.ListedWordsDecode : Prop :=
  decode 0x00000001 = .command .build ∧ decode 0x00000002 = .command .crc ∧
  decode 0x00000003 = .command .forgeAppend ∧ decode 0x00000013 = .command .forge ∧
  (∀ w ∈ [0x00000000, 0x00000004, 0x0000000F, 0x00000011, 0x00000012, 0x00000023, 0x80000013],
    ∃ why, decode w = .illegal why)

/-- R83: the four rows with their OP, P and RSVD fields and their words, and no other word decodes. -/
def Obligations.OpcodeMapIsComplete : Prop :=
  (encode .build = 0x00000001 ∧ encode .crc = 0x00000002 ∧ encode .forgeAppend = 0x00000003 ∧
    encode .forge = 0x00000013) ∧
  (∀ i, rsvdField (encode i) = 0 ∧ (pField (encode i) = true ↔ i = .forge) ∧
    opField (encode i) = (match i with | .build => 0x1 | .crc => 0x2 | .forgeAppend => 0x3 | .forge => 0x3)) ∧
  (∀ w i, decode w = .command i ↔ w = encode i)

/-- R85: which words are illegal, field by field, and that an illegal word changes nothing but STATUS.ERR. -/
def Obligations.IllegalWordsByField : Prop :=
  ∀ w, ((∃ why, decode w = .illegal why) ↔
      (opField w = 0 ∨ 4 ≤ (opField w).toNat ∨ (pField w = true ∧ opField w ≠ 3) ∨ rsvdField w ≠ 0)) ∧
    ((∃ why, decode w = .illegal why) ↔ ∀ i, w ≠ encode i) ∧
    ((∃ why, decode w = .illegal why) → ∀ s, commandWrite w s = .next { s with err := 2 })

/-! ### The tables and BUILD -/

/-- R104: BUILD completes from every state, with ERR 0, every entry of both tables that of POLY, and nothing else
changed but TPOLY. -/
def Obligations.BuildCompletesAndWritesTables : Prop :=
  ∀ s, ∃ t, exec .build s = .next t ∧
    (∀ i, entry t.ft i = ftEntry s.poly i ∧ entry t.rt i = rtEntry s.poly i) ∧ t.tpoly = s.poly ∧ t.err = 0 ∧
    t = { s with ft := t.ft, rt := t.rt, tpoly := t.tpoly, err := t.err }

/-- R105: BUILD is idempotent, whatever the state before it. -/
def Obligations.BuildIsIdempotent : Prop :=
  ∀ s s' t t', s.poly = s'.poly → exec .build s = .next t → exec .build s' = .next t' →
    t.ft = t'.ft ∧ t.rt = t'.rt ∧ exec .build t = .next t

/-- R106: the entries are eight-fold bit steps, the closed form of the reverse step, and linearity. -/
def Obligations.BitStepsAreLinear : Prop :=
  ∀ p, (∀ i : Byte, entry (ftTable p) i = (fBit p)^[8] (i.setWidth 32) ∧
      entry (rtTable p) i = (gBit p)^[8] (i.setWidth 32 <<< 24)) ∧
    (∀ a, gBit p a = (a <<< 1) ^^^ (if a.getLsbD 31 then (p <<< 1) ||| 1 else 0)) ∧
    (∀ a b, fBit p (a ^^^ b) = fBit p a ^^^ fBit p b ∧ gBit p (a ^^^ b) = gBit p a ^^^ gBit p b)

/-- R107: with bit 31 of the polynomial set the bit steps are inverse to each other; with it clear the forward step
always clears bit 31 and is not surjective. -/
def Obligations.ReverseBitStepInvertsForward : Prop :=
  ∀ p : Word, (p.getLsbD 31 = true → ∀ a, gBit p (fBit p a) = a ∧ fBit p (gBit p a) = a) ∧
    (p.getLsbD 31 = false → (∀ a, (fBit p a).getLsbD 31 = false) ∧ ¬ Function.Surjective (fBit p))

/-- R108: both tables are linear in the index, start with 0, and have the two closed-form entries. -/
def Obligations.TablesAreLinearInTheIndex : Prop :=
  ∀ p, (∀ i j, entry (ftTable p) (i ^^^ j) = entry (ftTable p) i ^^^ entry (ftTable p) j ∧
      entry (rtTable p) (i ^^^ j) = entry (rtTable p) i ^^^ entry (rtTable p) j) ∧
    entry (ftTable p) 0 = 0 ∧ entry (rtTable p) 0 = 0 ∧
    entry (ftTable p) 0x80 = p ∧ entry (rtTable p) 0x01 = (p <<< 1) ||| 1

/-- R109: with bit 31 of the polynomial set, the reverse table inverts the forward one. -/
def Obligations.ReverseTableInvertsForwardTable : Prop :=
  ∀ p : Word, p.getLsbD 31 = true →
    Function.Bijective (fun k => highByte (entry (ftTable p) k)) ∧
    (∀ k : Byte, (entry (ftTable p) k <<< 8) ^^^ entry (rtTable p) (highByte (entry (ftTable p) k)) = k.setWidth 32) ∧
    (∀ j k, highByte (entry (ftTable p) k) = j →
      lowByte (entry (rtTable p) j) = k ∧ entry (rtTable p) j >>> 8 = entry (ftTable p) k &&& 0x00FFFFFF)

/-! ### The accumulator and CRC -/

/-- R126: the table step is eight one-bit steps of the shift register. -/
def Obligations.ForwardStepIsEightBitSteps : Prop :=
  ∀ p s (c : Byte), fstep (ftTable p) s c = (fBit p)^[8] (s ^^^ c.setWidth 32)

/-- R125: under the tables of any polynomial the checksum is the conventional reflected CRC-32 of that polynomial,
computed bit by bit with no table. The bit-serial algorithm it is compared with is written from general knowledge
(log entry 15). -/
def Obligations.ChecksumIsConventionalCrc : Prop :=
  ∀ p seq, crc32 (ftTable p) seq = bitwiseCrc p seq

/-- R123: CRC on a written `DATA[0:LEN]` with `LEN <= MAXLEN` completes with the checksum in RESULT and ERR 0, and
changes nothing else. -/
def Obligations.CrcWritesTheChecksum : Prop :=
  ∀ s seq, s.len.toNat ≤ s.maxlen.toNat → s.DataIs seq →
    exec .crc s = .next { s with result := crc32 s.ft seq, err := 0 }

/-- The frame of CRC: whatever next state it answers, only RESULT and ERR can differ, so every byte of DATA and OUT,
every table entry and every other register reads as before (R123, R172). -/
def Obligations.CrcFrame : Prop :=
  ∀ s t, exec .crc s = .next t → t = { s with result := t.result, err := t.err }

/-- R124: the checksum of the empty sequence is 0, under every table, and CRC with LEN 0 answers it from every
state. -/
def Obligations.EmptySequenceHasChecksumZero : Prop :=
  (∀ ft, crc32 ft [] = 0) ∧ ∀ s, s.len = 0 → exec .crc s = .next { s with result := 0, err := 0 }

/-- R127: the recurrence over a concatenation is the composition of the recurrences. -/
def Obligations.RecurrenceComposes : Prop :=
  ∀ ft x a b, crcRaw ft x (a ++ b) = crcRaw ft (crcRaw ft x a) b

/-- R128: running the four bytes of `v` from state `x` is 32 bit steps from `x ^ v`, and so is running those of `x`
from `v`. -/
def Obligations.FourByteSymmetry : Prop :=
  ∀ p x v, crcRaw (ftTable p) x (leBytes v) = (fBit p)^[32] (x ^^^ v) ∧
    (fBit p)^[32] (x ^^^ v) = crcRaw (ftTable p) v (leBytes x)

/-- R129: the checksum of the single byte 0xFF is 0xFF000000 for every polynomial. -/
def Obligations.ChecksumOfByteFF : Prop :=
  ∀ p, crc32 (ftTable p) [0xFF] = 0xFF000000

/-! ### The forge engine -/

/-- R154: the reverse table step is eight reverse bit steps and the XOR of the byte. -/
def Obligations.ReverseStepIsEightBitSteps : Prop :=
  ∀ p b (c : Byte), rstep (rtTable p) b c = (gBit p)^[8] b ^^^ c.setWidth 32

/-- R152 and R153: in a state whose tables are those of TPOLY, with bit 31 of TPOLY set, the byte steps undo each
other in both orders. -/
def Obligations.ByteStepsUndoEachOther : Prop :=
  ∀ s : State, s.TablesMatch → s.Reversible → ∀ x c,
    rstep s.rt (fstep s.ft x c) c = x ∧ fstep s.ft (rstep s.rt x c) c = x

/-- R146: FORGE on a written `DATA[0:LEN]` with `POS <= LEN <= MAXLEN` completes: OUT takes the spliced sequence from
index 0, PATCH the patch, OUTLEN `LEN + 4`, ERR 0, and nothing else changes. -/
def Obligations.ForgeWritesTheSplicedSequence : Prop :=
  ∀ s seq, s.len.toNat ≤ s.maxlen.toNat → s.pos.toNat ≤ s.len.toNat → s.DataIs seq →
    exec .forge s = .next { s with
      out := s.out.writeBytes 0 (forgeOut s.ft s.rt s.wanted seq s.pos.toNat)
      patch := forgePatch s.ft s.rt s.wanted seq s.pos.toNat
      outlen := s.len + 4
      err := 0 }

/-- R147: FORGE.APPEND on a written `DATA[0:LEN]` with `LEN <= MAXLEN` completes with the same effect at position LEN,
whatever POS holds. -/
def Obligations.ForgeAppendWritesAtTheEnd : Prop :=
  ∀ s seq, s.len.toNat ≤ s.maxlen.toNat → s.DataIs seq →
    exec .forgeAppend s = .next { s with
      out := s.out.writeBytes 0 (seq ++ leBytes (forgePatch s.ft s.rt s.wanted seq seq.length))
      patch := forgePatch s.ft s.rt s.wanted seq seq.length
      outlen := s.len + 4
      err := 0 }

/-- The frame of FORGE and FORGE.APPEND: whatever next state they answer, only OUT, PATCH, OUTLEN and ERR can differ;
the bytes stored to are `OUT[0:LEN+4]`, so every other byte of OUT, and every byte of DATA, reads as before (R146, R34). -/
def Obligations.ForgeFrame : Prop :=
  ∀ i s t, IsForge i → exec i s = .next t →
    t = { s with out := t.out, patch := t.patch, outlen := t.outlen, err := t.err } ∧
    (∀ j, s.len.toNat + 4 ≤ j → t.out.read j = s.out.read j) ∧ (∀ j, t.data.read j = s.data.read j)

/-- The bytes of OUT after a successful forge command: the prefix, the patch, the suffix, and above `LEN+4` the older
bytes (R146, R156, R206). -/
def Obligations.ForgedBytesOfOut : Prop :=
  ∀ i s t, IsForge i → exec i s = .next t → t.err = 0 →
    (∀ j, j < forgePos i s → t.out.read j = s.data.read j) ∧
    (∀ k, k < 4 → t.out.read (forgePos i s + k) = (leBytes t.patch)[k]?) ∧
    (∀ j, forgePos i s ≤ j → j < s.len.toNat → t.out.read (j + 4) = s.data.read j) ∧
    (∀ j, s.len.toNat + 4 ≤ j → t.out.read j = s.out.read j)

/-- R58: the patch bytes in OUT are those of PATCH, little-endian, and a word read of PATCH is their `le32`. -/
def Obligations.PatchIsLittleEndianInOut : Prop :=
  ∀ i s t, IsForge i → exec i s = .next t → t.err = 0 →
    ∃ b0 b1 b2 b3, t.out.read (forgePos i s) = some b0 ∧ t.out.read (forgePos i s + 1) = some b1 ∧
      t.out.read (forgePos i s + 2) = some b2 ∧ t.out.read (forgePos i s + 3) = some b3 ∧
      b0 = t.patch.extractLsb' 0 8 ∧ b1 = t.patch.extractLsb' 8 8 ∧ b2 = t.patch.extractLsb' 16 8 ∧
      b3 = t.patch.extractLsb' 24 8 ∧ memRead t 0x01C 4 = .ok (le32 b0 b1 b2 b3)

/-- R156: the length of the forged sequence, and that it preserves the prefix and the suffix, for every pair of
tables. -/
def Obligations.ForgePreservesPrefixAndSuffix : Prop :=
  ∀ ft rt w s pos, pos ≤ s.length →
    (forgeOut ft rt w s pos).length = s.length + 4 ∧ (forgeOut ft rt w s pos).take pos = s.take pos ∧
    (forgeOut ft rt w s pos).drop (pos + 4) = s.drop pos

/-- R149: both ends of the range of positions are legal for FORGE, and the phase at that end is a no-op. -/
def Obligations.BothEndPositionsAreLegal : Prop :=
  ∀ s seq, s.len.toNat ≤ s.maxlen.toNat → s.DataIs seq →
    (s.pos = 0 → (∃ t, exec .forge s = .next t ∧ t.err = 0) ∧ crcRaw s.ft M32 (seq.take s.pos.toNat) = 0xFFFFFFFF) ∧
    (s.pos = s.len → (∃ t, exec .forge s = .next t ∧ t.err = 0) ∧
      backRun s.rt (s.wanted ^^^ M32) (seq.drop s.pos.toNat) = s.wanted ^^^ 0xFFFFFFFF)

/-- FORGE with `POS = LEN` is FORGE.APPEND, in every state, whatever the outcome (R147, example S6). -/
def Obligations.ForgeAtLenIsForgeAppend : Prop :=
  ∀ s : State, s.pos = s.len → exec .forge s = exec .forgeAppend s

/-- R155: the round trip, first over sequences, then through the block: a CRC over the OUTLEN bytes of OUT, copied
into DATA, gives RESULT = WANTED. The second clause is for states within the invariant (MAXLEN a legal parameter). -/
def Obligations.ForgedSequenceHasTheWantedChecksum : Prop :=
  ∀ s : State, s.TablesMatch → s.Reversible →
    (∀ w seq pos, pos ≤ seq.length → crc32 s.ft (forgeOut s.ft s.rt w seq pos) = w) ∧
    (s.Inv → ∀ i t u, IsForge i → exec i s = .next t → t.err = 0 →
      u.ft = t.ft → u.len = t.outlen → u.len.toNat ≤ u.maxlen.toNat →
      (∀ j, j < t.outlen.toNat → u.data.read j = t.out.read j) →
      ∃ v, exec .crc u = .next v ∧ v.result = s.wanted ∧ v.err = 0)

/-- R157: with bit 31 of TPOLY set exactly one patch reaches the target, and it is the one FORGE returns. -/
def Obligations.PatchIsUnique : Prop :=
  ∀ s : State, s.TablesMatch → s.Reversible → ∀ seq pos w, pos ≤ seq.length → ∀ y,
    crc32 s.ft (splice seq pos y) = w ↔ y = forgePatch s.ft s.rt w seq pos

/-- R158: with bit 31 of TPOLY clear the forge commands still complete with ERR 0, but for every sequence and position
some target has no patch at all, and the byte steps do not undo each other. -/
def Obligations.IrreversiblePolynomialHasTargetsWithoutPatch : Prop :=
  ∀ s : State, s.TablesMatch → ¬ s.Reversible →
    (∀ i, IsForge i → Ready i s → ∃ t, exec i s = .next t ∧ t.err = 0) ∧
    (∀ seq pos, ∃ w, ∀ y, crc32 s.ft (splice seq pos y) ≠ w) ∧
    (∃ x c, fstep s.ft (rstep s.rt x c) c ≠ x) ∧ (∃ x c, rstep s.rt (fstep s.ft x c) c ≠ x)

/-- R159: the outputs of a forge command are a function of TPOLY, WANTED, `DATA[0:LEN]` and the position alone. -/
def Obligations.ForgeDependsOnItsOperandsAlone : Prop :=
  ∀ i1 i2 s1 s2 t1 t2, IsForge i1 → IsForge i2 → s1.TablesMatch → s2.TablesMatch →
    s1.tpoly = s2.tpoly → s1.wanted = s2.wanted → s1.len = s2.len → forgePos i1 s1 = forgePos i2 s2 →
    (∀ j, j < s1.len.toNat → s1.data.read j = s2.data.read j) →
    exec i1 s1 = .next t1 → exec i2 s2 = .next t2 → t1.err = 0 → t2.err = 0 →
    t1.patch = t2.patch ∧ t1.outlen = t2.outlen ∧ ∀ j, j < s1.len.toNat + 4 → t1.out.read j = t2.out.read j

/-- R36 and R160: the datapath registers end at the values the commands use, and the number of table steps is linear:
one for each byte of a CRC; `pos`, `len - pos` and 4 for a forge. -/
def Obligations.TableStepsAreLinear : Prop :=
  ∀ ft rt w seq pos, pos ≤ seq.length →
    (accTrace ft seq).getLast? = some (crcRaw ft M32 seq) ∧ crcTableSteps ft seq = seq.length ∧
    (fwdTrace ft seq pos).getLast? = some (crcRaw ft M32 (seq.take pos)) ∧
    (bkdTrace ft rt w seq pos).getLast? = some (forgePatch ft rt w seq pos) ∧
    forgeTableSteps ft rt w seq pos = pos + (seq.length - pos) + 4

/-! ### Errors and model faults -/

/-- R175: LENGTH_OUT_OF_RANGE for CRC, FORGE and FORGE.APPEND exactly when `LEN > MAXLEN`; BUILD never raises it and
does not read LEN: with another LEN it does the same. -/
def Obligations.LengthOutOfRange : Prop :=
  (∀ s i, i = .crc ∨ i = .forge ∨ i = .forgeAppend →
    (exec i s = .next { s with err := 3 } ↔ s.maxlen.toNat < s.len.toNat)) ∧
  ∀ s t, exec .build s = .next t → t.err ≠ 3 ∧ ∀ n, exec .build { s with len := n } = .next { t with len := n }

/-- R148: once the length check has passed, FORGE raises INVALID_ARGUMENT exactly when `POS > LEN`. -/
def Obligations.InvalidArgumentExactlyPastTheEnd : Prop :=
  ∀ s : State, s.len.toNat ≤ s.maxlen.toNat →
    (exec .forge s = .next { s with err := 1 } ↔ s.len.toNat < s.pos.toNat)

/-- R177: exactly one error is reported, the first in the order ILLEGAL_COMMAND, LENGTH_OUT_OF_RANGE,
INVALID_ARGUMENT, and a command that reports one never reaches a model fault; with none, ERR ends 0. -/
def Obligations.FirstErrorIsReported : Prop :=
  ∀ w s, (errAfter w s ≠ .ok → commandWrite w s = .next { s with err := errBits (errAfter w s) }) ∧
    (errAfter w s = .ok → ∀ t, commandWrite w s = .next t → t.err = 0)

/-- R172: a command that ends with an error has written the code of that error to STATUS.ERR, and nothing else. -/
def Obligations.FailedCommandChangesOnlyErr : Prop :=
  ∀ w s t, commandWrite w s = .next t → t.err ≠ 0 →
    errAfter w s ≠ .ok ∧ t = { s with err := errBits (errAfter w s) }

/-- R74: an engine read of an unwritten byte of `DATA[0:LEN]` ends the command in the model fault at such a byte, and a
command that raises a CmdError cannot fault. -/
def Obligations.UnwrittenDataFaultsTheCommand : Prop :=
  ∀ i s, i ≠ .build →
    (s.len.toNat ≤ s.maxlen.toNat → forgePos i s ≤ s.len.toNat →
      (∃ j, j < s.len.toNat ∧ s.data.read j = none) →
      ∃ j, j < s.len.toNat ∧ s.data.read j = none ∧ exec i s = .fault (.unwrittenRead (0x10000 + j))) ∧
    (s.maxlen.toNat < s.len.toNat ∨ s.len.toNat < forgePos i s → ∃ t, exec i s = .next t)

/-- Every command completes with ERR 0 in every state that meets its own conditions (R173, R102, R123, R146, R147). -/
def Obligations.ReadyCommandsComplete : Prop :=
  ∀ i s, Ready i s → ∃ t, exec i s = .next t ∧ t.err = 0

/-- R212: a CMD write ends: it completes, or it meets an unwritten byte of `DATA[0:LEN]`; there is no other outcome. -/
def Obligations.EveryCommandEnds : Prop :=
  ∀ w s, (∃ t, commandWrite w s = .next t) ∨
    ∃ j, j < s.len.toNat ∧ s.data.read j = none ∧ commandWrite w s = .fault (.unwrittenRead (0x10000 + j))

/-! ### The host port -/

/-- R59: the accesses that bus-error are exactly those the table of legal accesses does not list, of every width. -/
def Obligations.AccessesAdmittedExactly : Prop :=
  ∀ s a n v, maxlenLegal s.maxlen = true →
    (memRead s a n = .error (.hostBusError a) ↔ ¬ LegalRead s.maxlen.toNat a n) ∧
    (memWrite s a n v = .fault (.hostBusError a) ↔ ¬ LegalWrite s.maxlen.toNat a n)

/-- R62: a misaligned 4-byte access is a bus error, in both directions and at every offset. -/
def Obligations.MisalignedWordIsBusError : Prop :=
  ∀ s a v, a % 4 ≠ 0 → memRead s a 4 = .error (.hostBusError a) ∧ memWrite s a 4 v = .fault (.hostBusError a)

/-- R54: every access to a reserved offset is a bus error, of every width and in both directions. -/
def Obligations.ReservedOffsetsAreBusErrors : Prop :=
  ∀ s a n v, (0x028 ≤ a ∧ a ≤ 0x3FF) ∨ (0xC00 ≤ a ∧ a ≤ 0xFFFF) →
    memRead s a n = .error (.hostBusError a) ∧ memWrite s a n v = .fault (.hostBusError a)

/-- R52 and R53: entry `i` of each table is read at its offset of the window, and the windows are read-only. -/
def Obligations.TableWindowsReadTheEntries : Prop :=
  (∀ s (i : Byte), memRead s (0x400 + 4 * i.toNat) 4 = .ok (entry s.ft i) ∧
    memRead s (0x800 + 4 * i.toNat) 4 = .ok (entry s.rt i)) ∧
  ∀ s a n v, 0x400 ≤ a → a ≤ 0xBFF → memWrite s a n v = .fault (.hostBusError a)

/-- What each register reads as (R22 to R31, R60), reserved STATUS bits included, and that CMD is not readable (R26). -/
def Obligations.RegistersReadTheirValues : Prop :=
  ∀ s, memRead s 0x004 4 = .ok (s.err.setWidth 32) ∧ memRead s 0x008 4 = .ok s.poly ∧
    memRead s 0x00C 4 = .ok s.len ∧ memRead s 0x010 4 = .ok s.pos ∧ memRead s 0x014 4 = .ok s.wanted ∧
    memRead s 0x018 4 = .ok s.result ∧ memRead s 0x01C 4 = .ok s.patch ∧ memRead s 0x020 4 = .ok s.outlen ∧
    memRead s 0x024 4 = .ok s.maxlen ∧ memRead s 0x000 4 = .error (.hostBusError 0)

/-- A write to an operand register stores the value unchanged and changes nothing else (R22 to R25, R61). -/
def Obligations.OperandWritesStoreTheValue : Prop :=
  ∀ s v, memWrite s 0x008 4 v = .next { s with poly := v } ∧ memWrite s 0x00C 4 v = .next { s with len := v } ∧
    memWrite s 0x010 4 v = .next { s with pos := v } ∧ memWrite s 0x014 4 v = .next { s with wanted := v }

/-- A 4-byte write to DATA completes; the word reads back, each of its bytes reads as `le_bytes` has it, every other
byte of DATA reads as before, and nothing but DATA changes (R57, R61, R76). -/
def Obligations.DataWordWriteReadsBack : Prop :=
  ∀ s i v, maxlenLegal s.maxlen = true → i % 4 = 0 → i < s.maxlen.toNat →
    ∃ t, memWrite s (0x10000 + i) 4 v = .next t ∧ t = { s with data := t.data } ∧
      memRead t (0x10000 + i) 4 = .ok v ∧
      (∀ k, k < 4 → memRead t (0x10000 + i + k) 1 = .ok ((v >>> (8 * k)) &&& 0xFF)) ∧
      (∀ j, j < i ∨ i + 4 ≤ j → t.data.read j = s.data.read j)

/-- A 1-byte write to DATA completes; the byte reads back as `v[7:0]`, every other byte of DATA reads as before, and
nothing but DATA changes (R61, R76). -/
def Obligations.DataByteWriteReadsBack : Prop :=
  ∀ s i v, maxlenLegal s.maxlen = true → i < s.maxlen.toNat →
    ∃ t, memWrite s (0x10000 + i) 1 v = .next t ∧ t = { s with data := t.data } ∧
      memRead t (0x10000 + i) 1 = .ok (v &&& 0xFF) ∧ (∀ j, j ≠ i → t.data.read j = s.data.read j)

/-- A 4-byte read of DATA or OUT is the little-endian composition of the four bytes (R57, R60). -/
def Obligations.BufferWordReadIsLittleEndian : Prop :=
  ∀ s k b0 b1 b2 b3, maxlenLegal s.maxlen = true →
    (4 * k < s.maxlen.toNat → s.data.read (4 * k) = some b0 → s.data.read (4 * k + 1) = some b1 →
      s.data.read (4 * k + 2) = some b2 → s.data.read (4 * k + 3) = some b3 →
      memRead s (0x10000 + 4 * k) 4 = .ok (le32 b0 b1 b2 b3)) ∧
    (4 * k < s.maxlen.toNat + 4 → s.out.read (4 * k) = some b0 → s.out.read (4 * k + 1) = some b1 →
      s.out.read (4 * k + 2) = some b2 → s.out.read (4 * k + 3) = some b3 →
      memRead s (0x20000 + 4 * k) 4 = .ok (le32 b0 b1 b2 b3))

/-- A legal read of DATA or OUT that covers a byte with a clear written mark is the model fault at its offset, and a
read of written bytes is not (R33, R34, R60). -/
def Obligations.UnwrittenBufferReadFaults : Prop :=
  ∀ s i n, maxlenLegal s.maxlen = true → n = 1 ∨ (n = 4 ∧ i % 4 = 0) →
    (i < s.maxlen.toNat → (memRead s (0x10000 + i) n = .error (.unwrittenRead (0x10000 + i)) ↔
      ∃ k, k < n ∧ s.data.read (i + k) = none)) ∧
    (i < s.maxlen.toNat + 4 → (memRead s (0x20000 + i) n = .error (.unwrittenRead (0x20000 + i)) ↔
      ∃ k, k < n ∧ s.out.read (i + k) = none))

/-! ### Steps -/

/-- The host's CMD write runs the command its word decodes to, with the host moved on to its next operation; an illegal
word sets ERR to 2 and changes nothing else of the block (R64, R80, R84, R174). How a program comes to stand in the host
is log entry 9. -/
def Obligations.StepRunsTheDecodedCommand : Prop :=
  (∀ s w i, s.Issues w → decode w = .command i → step s = thenAdvance (exec i s)) ∧
  (∀ s w why, s.Issues w → decode w = .illegal why → step s = .next ({ s with err := 2 } : State).advance) ∧
  (∀ (s : State) i, (s.withFetchWord 32 (encode i).toNat).Issues (encode i))

/-- A host read that answers a value assigns it to the host variable, and leaves the block as it was (R60, R65, R87). -/
def Obligations.HostReadLeavesTheBlockUnchanged : Prop :=
  (∀ (s : State) n off h (a : Nat) v, s.currentOp = some (.rd n off h) → s.eval off = (a : Int) → memRead s a n = .ok v →
    step s = .next (s.setVar h v.toNat).advance) ∧
  ∀ s n off h t, s.currentOp = some (.rd n off h) → step s = .next t → SameBlock s t

/-- The host's own operations touch the host alone: SET, the two conditional jumps, GOTO, and HALT or the end of the
program, where the block idles and holds its state (R87, R189, R213; that an idle step is the identity is log entry 9). -/
def Obligations.HostControlTouchesTheHostAlone : Prop :=
  (∀ s h e, s.currentOp = some (.set h e) → step s = .next (s.setVar h (s.eval e)).advance) ∧
  (∀ s a b l k, labelPosition s.host.program l = some k →
    (s.currentOp = some (.ifEq a b l) → step s = .next (if s.eval a = s.eval b then s.goTo k else s.advance)) ∧
    (s.currentOp = some (.ifNe a b l) → step s = .next (if s.eval a = s.eval b then s.advance else s.goTo k)) ∧
    (s.currentOp = some (.goto l) → step s = .next (s.goTo k))) ∧
  (∀ s, s.currentOp = none ∨ s.currentOp = some .halt → step s = .next s)

/-- A reset, between two accesses or in the middle of a command, leaves every element of the block at its reset value,
and MAXLEN as it is hardwired (R38, R200, R201). A reset as one host operation is the model's form (log entry 10). -/
def Obligations.ResetLeavesTheResetValues : Prop :=
  ∀ s, s.Resets → ∃ t, step s = .next t ∧
    t.poly = 0x82F63B78 ∧ t.len = 0 ∧ t.pos = 0 ∧ t.wanted = 0 ∧ t.err = 0 ∧ t.result = 0 ∧ t.patch = 0 ∧
    t.outlen = 0 ∧ t.maxlen = s.maxlen ∧ t.tpoly = 0x82F63B78 ∧
    (∀ i, entry t.ft i = ftEntry 0x82F63B78 i ∧ entry t.rt i = rtEntry 0x82F63B78 i) ∧
    (∀ j, t.data.read j = none ∧ t.out.read j = none)

/-- R204: a POLY write changes POLY alone, and a CRC, FORGE or FORGE.APPEND after it does what it would have done
before it: the tables stay those of TPOLY. -/
def Obligations.PolyWriteLeavesCommandsAlone : Prop :=
  ∀ (s : State) p, memWrite s 0x008 4 p = .next { s with poly := p } ∧
    ∀ i, i ≠ .build → ∀ t, exec i s = .next t → exec i { s with poly := p } = .next { t with poly := p }

/-- Only BUILD and reset write the tables (R32, R37). -/
def Obligations.TablesChangeOnlyByBuildOrReset : Prop :=
  ∀ s t, step s = .next t → t.ft ≠ s.ft ∨ t.rt ≠ s.rt ∨ t.tpoly ≠ s.tpoly → s.Issues (encode .build) ∨ s.Resets

/-- Each result has its own writers: RESULT a successful CRC, PATCH, OUTLEN and OUT a successful FORGE or FORGE.APPEND,
STATUS.ERR a command; and reset (R28, R29, R30, R34, R35). -/
def Obligations.ResultsChangeOnlyByTheirCommands : Prop :=
  ∀ s t, step s = .next t →
    (t.result ≠ s.result → (s.Issues (encode .crc) ∧ t.err = 0) ∨ s.Resets) ∧
    (t.patch ≠ s.patch ∨ t.outlen ≠ s.outlen ∨ t.out ≠ s.out →
      ((s.Issues (encode .forge) ∨ s.Issues (encode .forgeAppend)) ∧ t.err = 0) ∨ s.Resets) ∧
    (t.err ≠ s.err → (∃ w, s.Issues w) ∨ s.Resets)

/-- No command writes DATA, an operand register or MAXLEN, or touches the host (R73, R31); and no step at all changes
MAXLEN. -/
def Obligations.NoCommandWritesItsOperands : Prop :=
  (∀ w s t, commandWrite w s = .next t → t.data = s.data ∧ t.poly = s.poly ∧ t.len = s.len ∧ t.pos = s.pos ∧
    t.wanted = s.wanted ∧ t.maxlen = s.maxlen ∧ t.host = s.host) ∧
  ∀ s t, step s = .next t → t.maxlen = s.maxlen

/-- The invariant of the block is kept by every step, from every state that meets it. -/
def Obligations.EveryStepKeepsTheInvariant : Prop :=
  ∀ s t, s.Inv → step s = .next t → t.Inv

/-- The invariant holds right after reset, for every legal MAXLEN; the MAXLEN of `State.reset` is the model's choice
(log entry 1). -/
def Obligations.ResetMeetsTheInvariant : Prop :=
  (∀ m, maxlenLegal m = true → (State.resetAt m).Inv) ∧ State.reset.Inv
end

