-- ==== Sys2Proof/Laws/State.lean ====
section
/-! SUPPORT. One lemma for each field of State under each named update. -/

namespace Sys2Proof.Machine

/-! ### `complete` -/
@[simp] theorem complete_poly (s : State) : s.complete.poly = s.poly := rfl
@[simp] theorem complete_len (s : State) : s.complete.len = s.len := rfl
@[simp] theorem complete_pos (s : State) : s.complete.pos = s.pos := rfl
@[simp] theorem complete_wanted (s : State) : s.complete.wanted = s.wanted := rfl
@[simp] theorem complete_err (s : State) : s.complete.err = 0 := rfl
@[simp] theorem complete_result (s : State) : s.complete.result = s.result := rfl
@[simp] theorem complete_patch (s : State) : s.complete.patch = s.patch := rfl
@[simp] theorem complete_outlen (s : State) : s.complete.outlen = s.outlen := rfl
@[simp] theorem complete_maxlen (s : State) : s.complete.maxlen = s.maxlen := rfl
@[simp] theorem complete_ft (s : State) : s.complete.ft = s.ft := rfl
@[simp] theorem complete_rt (s : State) : s.complete.rt = s.rt := rfl
@[simp] theorem complete_tpoly (s : State) : s.complete.tpoly = s.tpoly := rfl
@[simp] theorem complete_data (s : State) : s.complete.data = s.data := rfl
@[simp] theorem complete_out (s : State) : s.complete.out = s.out := rfl
@[simp] theorem complete_host (s : State) : s.complete.host = s.host := rfl

/-! ### `buildTables` -/
@[simp] theorem buildTables_poly (s : State) (p : Word) : (s.buildTables p).poly = s.poly := rfl
@[simp] theorem buildTables_len (s : State) (p : Word) : (s.buildTables p).len = s.len := rfl
@[simp] theorem buildTables_pos (s : State) (p : Word) : (s.buildTables p).pos = s.pos := rfl
@[simp] theorem buildTables_wanted (s : State) (p : Word) : (s.buildTables p).wanted = s.wanted := rfl
@[simp] theorem buildTables_err (s : State) (p : Word) : (s.buildTables p).err = s.err := rfl
@[simp] theorem buildTables_result (s : State) (p : Word) : (s.buildTables p).result = s.result := rfl
@[simp] theorem buildTables_patch (s : State) (p : Word) : (s.buildTables p).patch = s.patch := rfl
@[simp] theorem buildTables_outlen (s : State) (p : Word) : (s.buildTables p).outlen = s.outlen := rfl
@[simp] theorem buildTables_maxlen (s : State) (p : Word) : (s.buildTables p).maxlen = s.maxlen := rfl
@[simp] theorem buildTables_ft (s : State) (p : Word) : (s.buildTables p).ft = ftTable p := rfl
@[simp] theorem buildTables_rt (s : State) (p : Word) : (s.buildTables p).rt = rtTable p := rfl
@[simp] theorem buildTables_tpoly (s : State) (p : Word) : (s.buildTables p).tpoly = p := rfl
@[simp] theorem buildTables_data (s : State) (p : Word) : (s.buildTables p).data = s.data := rfl
@[simp] theorem buildTables_out (s : State) (p : Word) : (s.buildTables p).out = s.out := rfl
@[simp] theorem buildTables_host (s : State) (p : Word) : (s.buildTables p).host = s.host := rfl

/-! ### `setResult` -/
@[simp] theorem setResult_poly (s : State) (v : Word) : (s.setResult v).poly = s.poly := rfl
@[simp] theorem setResult_len (s : State) (v : Word) : (s.setResult v).len = s.len := rfl
@[simp] theorem setResult_pos (s : State) (v : Word) : (s.setResult v).pos = s.pos := rfl
@[simp] theorem setResult_wanted (s : State) (v : Word) : (s.setResult v).wanted = s.wanted := rfl
@[simp] theorem setResult_err (s : State) (v : Word) : (s.setResult v).err = s.err := rfl
@[simp] theorem setResult_result (s : State) (v : Word) : (s.setResult v).result = v := rfl
@[simp] theorem setResult_patch (s : State) (v : Word) : (s.setResult v).patch = s.patch := rfl
@[simp] theorem setResult_outlen (s : State) (v : Word) : (s.setResult v).outlen = s.outlen := rfl
@[simp] theorem setResult_maxlen (s : State) (v : Word) : (s.setResult v).maxlen = s.maxlen := rfl
@[simp] theorem setResult_ft (s : State) (v : Word) : (s.setResult v).ft = s.ft := rfl
@[simp] theorem setResult_rt (s : State) (v : Word) : (s.setResult v).rt = s.rt := rfl
@[simp] theorem setResult_tpoly (s : State) (v : Word) : (s.setResult v).tpoly = s.tpoly := rfl
@[simp] theorem setResult_data (s : State) (v : Word) : (s.setResult v).data = s.data := rfl
@[simp] theorem setResult_out (s : State) (v : Word) : (s.setResult v).out = s.out := rfl
@[simp] theorem setResult_host (s : State) (v : Word) : (s.setResult v).host = s.host := rfl

/-! ### `setForged` -/
@[simp] theorem setForged_poly (s : State) (o : List Byte) (p n : Word) : (s.setForged o p n).poly = s.poly := rfl
@[simp] theorem setForged_len (s : State) (o : List Byte) (p n : Word) : (s.setForged o p n).len = s.len := rfl
@[simp] theorem setForged_pos (s : State) (o : List Byte) (p n : Word) : (s.setForged o p n).pos = s.pos := rfl
@[simp] theorem setForged_wanted (s : State) (o : List Byte) (p n : Word) : (s.setForged o p n).wanted = s.wanted := rfl
@[simp] theorem setForged_err (s : State) (o : List Byte) (p n : Word) : (s.setForged o p n).err = s.err := rfl
@[simp] theorem setForged_result (s : State) (o : List Byte) (p n : Word) : (s.setForged o p n).result = s.result := rfl
@[simp] theorem setForged_patch (s : State) (o : List Byte) (p n : Word) : (s.setForged o p n).patch = p := rfl
@[simp] theorem setForged_outlen (s : State) (o : List Byte) (p n : Word) : (s.setForged o p n).outlen = n := rfl
@[simp] theorem setForged_maxlen (s : State) (o : List Byte) (p n : Word) : (s.setForged o p n).maxlen = s.maxlen := rfl
@[simp] theorem setForged_ft (s : State) (o : List Byte) (p n : Word) : (s.setForged o p n).ft = s.ft := rfl
@[simp] theorem setForged_rt (s : State) (o : List Byte) (p n : Word) : (s.setForged o p n).rt = s.rt := rfl
@[simp] theorem setForged_tpoly (s : State) (o : List Byte) (p n : Word) : (s.setForged o p n).tpoly = s.tpoly := rfl
@[simp] theorem setForged_data (s : State) (o : List Byte) (p n : Word) : (s.setForged o p n).data = s.data := rfl
@[simp] theorem setForged_out (s : State) (o : List Byte) (p n : Word) : (s.setForged o p n).out = s.out.writeBytes 0 o := rfl
@[simp] theorem setForged_host (s : State) (o : List Byte) (p n : Word) : (s.setForged o p n).host = s.host := rfl

/-! ### `goTo` -/
@[simp] theorem goTo_poly (s : State) (k : Nat) : (s.goTo k).poly = s.poly := rfl
@[simp] theorem goTo_len (s : State) (k : Nat) : (s.goTo k).len = s.len := rfl
@[simp] theorem goTo_pos (s : State) (k : Nat) : (s.goTo k).pos = s.pos := rfl
@[simp] theorem goTo_wanted (s : State) (k : Nat) : (s.goTo k).wanted = s.wanted := rfl
@[simp] theorem goTo_err (s : State) (k : Nat) : (s.goTo k).err = s.err := rfl
@[simp] theorem goTo_result (s : State) (k : Nat) : (s.goTo k).result = s.result := rfl
@[simp] theorem goTo_patch (s : State) (k : Nat) : (s.goTo k).patch = s.patch := rfl
@[simp] theorem goTo_outlen (s : State) (k : Nat) : (s.goTo k).outlen = s.outlen := rfl
@[simp] theorem goTo_maxlen (s : State) (k : Nat) : (s.goTo k).maxlen = s.maxlen := rfl
@[simp] theorem goTo_ft (s : State) (k : Nat) : (s.goTo k).ft = s.ft := rfl
@[simp] theorem goTo_rt (s : State) (k : Nat) : (s.goTo k).rt = s.rt := rfl
@[simp] theorem goTo_tpoly (s : State) (k : Nat) : (s.goTo k).tpoly = s.tpoly := rfl
@[simp] theorem goTo_data (s : State) (k : Nat) : (s.goTo k).data = s.data := rfl
@[simp] theorem goTo_out (s : State) (k : Nat) : (s.goTo k).out = s.out := rfl
@[simp] theorem goTo_host (s : State) (k : Nat) : (s.goTo k).host = { s.host with position := k } := rfl

/-! ### `advance` -/
@[simp] theorem advance_poly (s : State) : s.advance.poly = s.poly := rfl
@[simp] theorem advance_len (s : State) : s.advance.len = s.len := rfl
@[simp] theorem advance_pos (s : State) : s.advance.pos = s.pos := rfl
@[simp] theorem advance_wanted (s : State) : s.advance.wanted = s.wanted := rfl
@[simp] theorem advance_err (s : State) : s.advance.err = s.err := rfl
@[simp] theorem advance_result (s : State) : s.advance.result = s.result := rfl
@[simp] theorem advance_patch (s : State) : s.advance.patch = s.patch := rfl
@[simp] theorem advance_outlen (s : State) : s.advance.outlen = s.outlen := rfl
@[simp] theorem advance_maxlen (s : State) : s.advance.maxlen = s.maxlen := rfl
@[simp] theorem advance_ft (s : State) : s.advance.ft = s.ft := rfl
@[simp] theorem advance_rt (s : State) : s.advance.rt = s.rt := rfl
@[simp] theorem advance_tpoly (s : State) : s.advance.tpoly = s.tpoly := rfl
@[simp] theorem advance_data (s : State) : s.advance.data = s.data := rfl
@[simp] theorem advance_out (s : State) : s.advance.out = s.out := rfl
@[simp] theorem advance_host (s : State) : s.advance.host = { s.host with position := s.host.position + 1 } := rfl

/-! ### `setVar` -/
@[simp] theorem setVar_poly (s : State) (h : HostVar) (v : Int) : (s.setVar h v).poly = s.poly := rfl
@[simp] theorem setVar_len (s : State) (h : HostVar) (v : Int) : (s.setVar h v).len = s.len := rfl
@[simp] theorem setVar_pos (s : State) (h : HostVar) (v : Int) : (s.setVar h v).pos = s.pos := rfl
@[simp] theorem setVar_wanted (s : State) (h : HostVar) (v : Int) : (s.setVar h v).wanted = s.wanted := rfl
@[simp] theorem setVar_err (s : State) (h : HostVar) (v : Int) : (s.setVar h v).err = s.err := rfl
@[simp] theorem setVar_result (s : State) (h : HostVar) (v : Int) : (s.setVar h v).result = s.result := rfl
@[simp] theorem setVar_patch (s : State) (h : HostVar) (v : Int) : (s.setVar h v).patch = s.patch := rfl
@[simp] theorem setVar_outlen (s : State) (h : HostVar) (v : Int) : (s.setVar h v).outlen = s.outlen := rfl
@[simp] theorem setVar_maxlen (s : State) (h : HostVar) (v : Int) : (s.setVar h v).maxlen = s.maxlen := rfl
@[simp] theorem setVar_ft (s : State) (h : HostVar) (v : Int) : (s.setVar h v).ft = s.ft := rfl
@[simp] theorem setVar_rt (s : State) (h : HostVar) (v : Int) : (s.setVar h v).rt = s.rt := rfl
@[simp] theorem setVar_tpoly (s : State) (h : HostVar) (v : Int) : (s.setVar h v).tpoly = s.tpoly := rfl
@[simp] theorem setVar_data (s : State) (h : HostVar) (v : Int) : (s.setVar h v).data = s.data := rfl
@[simp] theorem setVar_out (s : State) (h : HostVar) (v : Int) : (s.setVar h v).out = s.out := rfl
@[simp] theorem setVar_host (s : State) (h : HostVar) (v : Int) : (s.setVar h v).host = { s.host with vars := putAt s.host.vars h v } := rfl

/-! ### `writeData` -/
@[simp] theorem writeData_poly (s : State) (i n : Nat) (v : Word) : (writeData s i n v).poly = s.poly := rfl
@[simp] theorem writeData_len (s : State) (i n : Nat) (v : Word) : (writeData s i n v).len = s.len := rfl
@[simp] theorem writeData_pos (s : State) (i n : Nat) (v : Word) : (writeData s i n v).pos = s.pos := rfl
@[simp] theorem writeData_wanted (s : State) (i n : Nat) (v : Word) : (writeData s i n v).wanted = s.wanted := rfl
@[simp] theorem writeData_err (s : State) (i n : Nat) (v : Word) : (writeData s i n v).err = s.err := rfl
@[simp] theorem writeData_result (s : State) (i n : Nat) (v : Word) : (writeData s i n v).result = s.result := rfl
@[simp] theorem writeData_patch (s : State) (i n : Nat) (v : Word) : (writeData s i n v).patch = s.patch := rfl
@[simp] theorem writeData_outlen (s : State) (i n : Nat) (v : Word) : (writeData s i n v).outlen = s.outlen := rfl
@[simp] theorem writeData_maxlen (s : State) (i n : Nat) (v : Word) : (writeData s i n v).maxlen = s.maxlen := rfl
@[simp] theorem writeData_ft (s : State) (i n : Nat) (v : Word) : (writeData s i n v).ft = s.ft := rfl
@[simp] theorem writeData_rt (s : State) (i n : Nat) (v : Word) : (writeData s i n v).rt = s.rt := rfl
@[simp] theorem writeData_tpoly (s : State) (i n : Nat) (v : Word) : (writeData s i n v).tpoly = s.tpoly := rfl
@[simp] theorem writeData_data (s : State) (i n : Nat) (v : Word) : (writeData s i n v).data = if n = 1 then s.data.write i (lowByte v) else s.data.writeBytes i (leBytes v) := rfl
@[simp] theorem writeData_out (s : State) (i n : Nat) (v : Word) : (writeData s i n v).out = s.out := rfl
@[simp] theorem writeData_host (s : State) (i n : Nat) (v : Word) : (writeData s i n v).host = s.host := rfl

/-! ### `blockReset` -/
@[simp] theorem blockReset_poly (s : State) : s.blockReset.poly = 0x82F63B78 := rfl
@[simp] theorem blockReset_len (s : State) : s.blockReset.len = 0 := rfl
@[simp] theorem blockReset_pos (s : State) : s.blockReset.pos = 0 := rfl
@[simp] theorem blockReset_wanted (s : State) : s.blockReset.wanted = 0 := rfl
@[simp] theorem blockReset_err (s : State) : s.blockReset.err = 0 := rfl
@[simp] theorem blockReset_result (s : State) : s.blockReset.result = 0 := rfl
@[simp] theorem blockReset_patch (s : State) : s.blockReset.patch = 0 := rfl
@[simp] theorem blockReset_outlen (s : State) : s.blockReset.outlen = 0 := rfl
@[simp] theorem blockReset_maxlen (s : State) : s.blockReset.maxlen = s.maxlen := rfl
@[simp] theorem blockReset_ft (s : State) : s.blockReset.ft = ftTable 0x82F63B78 := rfl
@[simp] theorem blockReset_rt (s : State) : s.blockReset.rt = rtTable 0x82F63B78 := rfl
@[simp] theorem blockReset_tpoly (s : State) : s.blockReset.tpoly = 0x82F63B78 := rfl
@[simp] theorem blockReset_data (s : State) : s.blockReset.data = [] := rfl
@[simp] theorem blockReset_out (s : State) : s.blockReset.out = [] := rfl
@[simp] theorem blockReset_host (s : State) : s.blockReset.host = s.host := rfl

/-! ### `writeRw`: an operand register takes the value; the rest stays -/
@[simp] theorem writeRw_poly (s : State) (v : Word) (r : RwReg) :
    (writeRw s v r).poly = if r = .poly then v else s.poly := by cases r <;> rfl
@[simp] theorem writeRw_len (s : State) (v : Word) (r : RwReg) :
    (writeRw s v r).len = if r = .len then v else s.len := by cases r <;> rfl
@[simp] theorem writeRw_pos (s : State) (v : Word) (r : RwReg) :
    (writeRw s v r).pos = if r = .pos then v else s.pos := by cases r <;> rfl
@[simp] theorem writeRw_wanted (s : State) (v : Word) (r : RwReg) :
    (writeRw s v r).wanted = if r = .wanted then v else s.wanted := by cases r <;> rfl
@[simp] theorem writeRw_err (s : State) (v : Word) (r : RwReg) : (writeRw s v r).err = s.err := by
  cases r <;> rfl
@[simp] theorem writeRw_result (s : State) (v : Word) (r : RwReg) : (writeRw s v r).result = s.result := by
  cases r <;> rfl
@[simp] theorem writeRw_patch (s : State) (v : Word) (r : RwReg) : (writeRw s v r).patch = s.patch := by
  cases r <;> rfl
@[simp] theorem writeRw_outlen (s : State) (v : Word) (r : RwReg) : (writeRw s v r).outlen = s.outlen := by
  cases r <;> rfl
@[simp] theorem writeRw_maxlen (s : State) (v : Word) (r : RwReg) : (writeRw s v r).maxlen = s.maxlen := by
  cases r <;> rfl
@[simp] theorem writeRw_ft (s : State) (v : Word) (r : RwReg) : (writeRw s v r).ft = s.ft := by
  cases r <;> rfl
@[simp] theorem writeRw_rt (s : State) (v : Word) (r : RwReg) : (writeRw s v r).rt = s.rt := by
  cases r <;> rfl
@[simp] theorem writeRw_tpoly (s : State) (v : Word) (r : RwReg) : (writeRw s v r).tpoly = s.tpoly := by
  cases r <;> rfl
@[simp] theorem writeRw_data (s : State) (v : Word) (r : RwReg) : (writeRw s v r).data = s.data := by
  cases r <;> rfl
@[simp] theorem writeRw_out (s : State) (v : Word) (r : RwReg) : (writeRw s v r).out = s.out := by
  cases r <;> rfl
@[simp] theorem writeRw_host (s : State) (v : Word) (r : RwReg) : (writeRw s v r).host = s.host := by
  cases r <;> rfl

end Sys2Proof.Machine
end

