-- ==== Sys2Proof/Laws/Memory.lean ====
section
/-! SUPPORT. Sorted association lists and byte buffers: read after write, the canonical form, the capacity. -/

namespace Sys2Proof.Machine

variable {α : Type}

theorem getAt_putAt (m : List (Nat × α)) (a b : Nat) (v : α) :
    getAt (putAt m a v) b = if b = a then some v else getAt m b := by
  induction m with
  | nil => simp [putAt, getAt]
  | cons x t ih =>
    obtain ⟨c, w⟩ := x
    simp only [putAt]
    split
    · simp [getAt]
    · split
      · next h => subst h; simp only [getAt]; split <;> simp_all
      · simp only [getAt, ih]
        split
        · next h1 h2 => subst h2; simp_all [eq_comm]
        · rfl

/-- Inserting keeps the first key at or above any bound that the old first key and the new key respect. -/
theorem rising_putAt (m : List (Nat × α)) (a : Nat) (v : α) (h : rising m = true) :
    rising (putAt m a v) = true := by
  induction m with
  | nil => rfl
  | cons x t ih =>
    obtain ⟨c, w⟩ := x
    have ht : rising t = true := by
      cases t with
      | nil => rfl
      | cons y t => simp only [rising, Bool.and_eq_true] at h; exact h.2
    simp only [putAt]
    split
    · next hlt => simp only [rising, Bool.and_eq_true, decide_eq_true_eq]; exact ⟨hlt, h⟩
    · next hge =>
      split
      · next heq =>
        subst heq
        cases t with
        | nil => rfl
        | cons y t => simpa [rising] using h
      · next hne =>
        have hr := ih ht
        cases t with
        | nil => simp [putAt, rising]; omega
        | cons y t =>
          obtain ⟨d, u⟩ := y
          simp only [rising, Bool.and_eq_true, decide_eq_true_eq] at h
          simp only [putAt] at hr ⊢
          split at hr
          · next h1 => simp only [h1, if_true, rising, Bool.and_eq_true, decide_eq_true_eq] at hr ⊢; exact ⟨by omega, hr⟩
          · next h1 =>
            split at hr
            · next h2 => simp only [h2, if_true] at hr ⊢; cases t <;> simp_all [rising]
            · next h2 =>
              simp only [h1, h2, if_false] at hr ⊢
              cases hp : putAt t a v with
              | nil => simp [rising, h.1]
              | cons z t' => rw [hp] at hr; simp only [rising, Bool.and_eq_true, decide_eq_true_eq] at hr ⊢; exact ⟨h.1, hr⟩

/-- A key below the first key of a rising list is not listed. -/
theorem getAt_of_lt_head (c : Nat) (w : α) (t : List (Nat × α)) (h : rising ((c, w) :: t) = true) (a : Nat)
    (ha : a < c) : getAt ((c, w) :: t) a = none := by
  induction t generalizing c w with
  | nil => simp [getAt]; omega
  | cons y t ih =>
    obtain ⟨d, u⟩ := y
    simp only [rising, Bool.and_eq_true, decide_eq_true_eq] at h
    have := ih d u h.2 (by omega)
    rw [getAt, if_neg (by omega), this]

/-- The canonical form: two rising lists that read alike everywhere are the same list. -/
theorem rising_ext (m n : List (Nat × α)) (hm : rising m = true) (hn : rising n = true)
    (h : ∀ a, getAt m a = getAt n a) : m = n := by
  induction m generalizing n with
  | nil =>
    cases n with
    | nil => rfl
    | cons y t => have := h y.1; simp [getAt] at this
  | cons x t ih =>
    obtain ⟨c, w⟩ := x
    cases n with
    | nil => have := h c; simp [getAt] at this
    | cons y t' =>
      obtain ⟨d, u⟩ := y
      have hcd : c = d := by
        rcases Nat.lt_trichotomy c d with hlt | heq | hgt
        · have h1 := getAt_of_lt_head d u t' hn c hlt
          have h2 := h c
          rw [h1] at h2; simp [getAt] at h2
        · exact heq
        · have h1 := getAt_of_lt_head c w t hm d hgt
          have h2 := h d
          rw [h1] at h2; simp [getAt] at h2
      subst hcd
      have hwu : w = u := by have := h c; simpa [getAt] using this
      subst hwu
      have tail : ∀ (l : List (Nat × α)), rising ((c, w) :: l) = true → rising l = true ∧ getAt l c = none := by
        intro l hl
        cases l with
        | nil => exact ⟨rfl, rfl⟩
        | cons z l =>
          simp only [rising, Bool.and_eq_true, decide_eq_true_eq] at hl
          exact ⟨hl.2, getAt_of_lt_head z.1 z.2 l hl.2 c hl.1⟩
      have e : t = t' := by
        refine ih t' (tail t hm).1 (tail t' hn).1 fun a => ?_
        by_cases hac : a = c
        · subst hac; rw [(tail t hm).2, (tail t' hn).2]
        · have := h a; simpa [getAt, hac] using this
      rw [e]

@[simp] theorem Memory.read_nil (a : Nat) : Memory.read [] a = none := rfl

theorem Memory.read_write (m : Memory) (i j : Nat) (v : Byte) :
    (m.write i v).read j = if j = i then some v else m.read j := getAt_putAt m i j v

theorem Memory.read_writeBytes (m : Memory) (i : Nat) (bs : List Byte) (j : Nat) :
    (m.writeBytes i bs).read j = if i ≤ j ∧ j < i + bs.length then bs[j - i]? else m.read j := by
  induction bs generalizing m i with
  | nil => simp only [Memory.writeBytes, List.length_nil]; rw [if_neg (by omega)]
  | cons b t ih =>
    simp only [Memory.writeBytes, ih, Memory.read_write, List.length_cons]
    by_cases h0 : j = i
    · subst h0; rw [if_neg (by omega), if_pos rfl, if_pos (by omega)]; simp
    · by_cases h1 : i + 1 ≤ j ∧ j < i + 1 + t.length
      · rw [if_pos h1, if_pos (by omega)]
        obtain ⟨k, rfl⟩ : ∃ k, j = i + 1 + k := ⟨j - (i + 1), by omega⟩
        rw [show i + 1 + k - i = k + 1 by omega, List.getElem?_cons_succ]; congr 1; omega
      · rw [if_neg h1, if_neg h0, if_neg (by omega)]

theorem Memory.wf_write (m : Memory) (i : Nat) (v : Byte) (h : m.wf = true) : (m.write i v).wf = true :=
  rising_putAt m i v h

theorem Memory.wf_writeBytes (m : Memory) (i : Nat) (bs : List Byte) (h : m.wf = true) :
    (m.writeBytes i bs).wf = true := by
  induction bs generalizing m i with
  | nil => exact h
  | cons b t ih => exact ih _ _ (m.wf_write i b h)

/-- Canonical buffers that read alike are equal data. -/
theorem Memory.ext_read (m n : Memory) (hm : m.wf = true) (hn : n.wf = true) (h : ∀ j, m.read j = n.read j) :
    m = n := rising_ext m n hm hn h

theorem Memory.within_write (m : Memory) (n i : Nat) (v : Byte) (h : m.within n = true) (hi : i < n) :
    (m.write i v).within n = true := by
  induction m with
  | nil => simpa [Memory.write, putAt, Memory.within] using hi
  | cons x t ih =>
    obtain ⟨c, w⟩ := x
    simp only [Memory.within, List.all_cons, Bool.and_eq_true, decide_eq_true_eq] at h ih ⊢
    simp only [Memory.write, putAt] at ih ⊢
    split
    · simp only [List.all_cons, Bool.and_eq_true, decide_eq_true_eq]; exact ⟨hi, h⟩
    · split
      · simp only [List.all_cons, Bool.and_eq_true, decide_eq_true_eq]; exact ⟨hi, h.2⟩
      · simp only [List.all_cons, Bool.and_eq_true, decide_eq_true_eq]; exact ⟨h.1, ih h.2⟩

theorem Memory.within_writeBytes (m : Memory) (n i : Nat) (bs : List Byte) (h : m.within n = true)
    (hi : i + bs.length ≤ n) : (m.writeBytes i bs).within n = true := by
  induction bs generalizing m i with
  | nil => exact h
  | cons b t ih =>
    simp only [List.length_cons] at hi
    exact ih _ _ (m.within_write n i b h (by omega)) (by omega)

end Sys2Proof.Machine
end

