-- ==== Sys2Proof/Laws/Engine.lean ====
section
/-! SUPPORT. The engine's reads, and what each command does: one law for success, one for each way to stop. -/

namespace Sys2Proof.Machine

/-- `seq` is `m[j], …, m[j+n-1]`, every byte written. -/
def Reads (m : Memory) (j n : Nat) (seq : List Byte) : Prop :=
  seq.length = n ∧ ∀ k, k < n → m.read (j + k) = seq[k]?

theorem reads_written {m : Memory} {j n : Nat} {seq : List Byte} (h : Reads m j n seq) (k : Nat) (hk : k < n) :
    m.read (j + k) ≠ none := by
  rw [h.2 k hk]; obtain ⟨hl, -⟩ := h; subst hl; simp [hk]

theorem reads_unique {m : Memory} {j n : Nat} {a b : List Byte} (ha : Reads m j n a) (hb : Reads m j n b) :
    a = b := by
  refine List.ext_getElem? fun k => ?_
  by_cases hk : k < n
  · rw [← ha.2 k hk, hb.2 k hk]
  · rw [List.getElem?_eq_none (by have := ha.1; omega), List.getElem?_eq_none (by have := hb.1; omega)]

theorem reads_append {m : Memory} {j a b : Nat} {x y : List Byte} (hx : Reads m j a x) (hy : Reads m (j + a) b y) :
    Reads m j (a + b) (x ++ y) := by
  refine ⟨by simp [hx.1, hy.1], fun k hk => ?_⟩
  by_cases h : k < a
  · rw [List.getElem?_append_left (by have := hx.1; omega)]; exact hx.2 k h
  · rw [List.getElem?_append_right (by have := hx.1; omega), hx.1, ← hy.2 (k - a) (by omega)]; congr 1; omega

theorem readUp_ok {m : Memory} {j n : Nat} {seq : List Byte} : readUp m j n = .ok seq ↔ Reads m j n seq := by
  induction n generalizing j seq with
  | zero =>
    simp only [readUp, Except.ok.injEq, Reads]
    exact ⟨fun h => by subst h; simp, fun h => (List.eq_nil_of_length_eq_zero h.1).symm⟩
  | succ n ih =>
    simp only [readUp]
    constructor
    · intro h
      cases hc : m.read j with
      | none => simp [hc] at h
      | some c =>
        simp only [hc] at h
        cases ht : readUp m (j + 1) n with
        | error k => simp [ht] at h
        | ok t =>
          simp only [ht, Except.ok.injEq] at h
          subst h
          obtain ⟨h1, h2⟩ := ih.1 ht
          refine ⟨by simp [h1], fun k hk => ?_⟩
          cases k with
          | zero => simpa using hc
          | succ k => rw [List.getElem?_cons_succ, ← h2 k (by omega)]; congr 1; omega
    · rintro ⟨h1, h2⟩
      cases seq with
      | nil => simp at h1
      | cons c t =>
        have h0 := h2 0 (by omega)
        simp only [Nat.add_zero, List.getElem?_cons_zero] at h0
        have ht : readUp m (j + 1) n = .ok t := by
          refine ih.2 ⟨by simpa using h1, fun k hk => ?_⟩
          have := h2 (k + 1) (by omega)
          rw [List.getElem?_cons_succ] at this
          rw [← this]; congr 1; omega
        simp [h0, ht]

theorem readUp_error {m : Memory} {j n k : Nat} (h : readUp m j n = .error k) :
    j ≤ k ∧ k < j + n ∧ m.read k = none ∧ ∀ i, j ≤ i → i < k → m.read i ≠ none := by
  induction n generalizing j with
  | zero => simp [readUp] at h
  | succ n ih =>
    simp only [readUp] at h
    cases hc : m.read j with
    | none => simp only [hc, Except.error.injEq] at h; subst h; exact ⟨le_refl _, by omega, hc, fun i h1 h2 => by omega⟩
    | some c =>
      simp only [hc] at h
      cases ht : readUp m (j + 1) n with
      | ok t => simp [ht] at h
      | error k' =>
        simp only [ht, Except.error.injEq] at h
        subst h
        obtain ⟨h1, h2, h3, h4⟩ := ih ht
        refine ⟨by omega, by omega, h3, fun i hi hik => ?_⟩
        rcases Nat.eq_or_lt_of_le hi with rfl | hlt
        · simp [hc]
        · exact h4 i hlt hik

theorem readDown_ok {m : Memory} {lo n : Nat} {seq : List Byte} : readDown m lo n = .ok seq ↔ Reads m lo n seq := by
  induction n generalizing seq with
  | zero =>
    simp only [readDown, Except.ok.injEq, Reads]
    exact ⟨fun h => by subst h; simp, fun h => (List.eq_nil_of_length_eq_zero h.1).symm⟩
  | succ n ih =>
    simp only [readDown]
    constructor
    · intro h
      cases hc : m.read (lo + n) with
      | none => simp [hc] at h
      | some c =>
        simp only [hc] at h
        cases ht : readDown m lo n with
        | error k => simp [ht] at h
        | ok t =>
          simp only [ht, Except.ok.injEq] at h
          subst h
          refine reads_append (ih.1 ht) ⟨by simp, fun k hk => ?_⟩
          obtain rfl : k = 0 := by omega
          simpa using hc
    · rintro ⟨h1, h2⟩
      have hne : seq ≠ [] := by rintro rfl; simp at h1
      have hs := List.dropLast_concat_getLast hne
      have hl : seq.dropLast.length = n := by simp [h1]
      have ht : readDown m lo n = .ok seq.dropLast := by
        refine ih.2 ⟨hl, fun k hk => ?_⟩
        rw [h2 k (by omega), List.getElem?_dropLast, if_pos (by omega)]
      have hc : m.read (lo + n) = some (seq.getLast hne) := by
        rw [h2 n (by omega), List.getLast_eq_getElem]
        simp only [h1, Nat.add_sub_cancel]
        exact List.getElem?_eq_getElem (by omega)
      simp [hc, ht, hs]

theorem readDown_error {m : Memory} {lo n k : Nat} (h : readDown m lo n = .error k) :
    lo ≤ k ∧ k < lo + n ∧ m.read k = none ∧ ∀ i, k < i → i < lo + n → m.read i ≠ none := by
  induction n with
  | zero => simp [readDown] at h
  | succ n ih =>
    simp only [readDown] at h
    cases hc : m.read (lo + n) with
    | none => simp only [hc, Except.error.injEq] at h; subst h; exact ⟨by omega, by omega, hc, fun i h1 h2 => by omega⟩
    | some c =>
      simp only [hc] at h
      cases ht : readDown m lo n with
      | ok t => simp [ht] at h
      | error k' =>
        simp only [ht, Except.error.injEq] at h
        subst h
        obtain ⟨h1, h2, h3, h4⟩ := ih ht
        refine ⟨h1, by omega, h3, fun i hi hik => ?_⟩
        rcases Nat.lt_or_ge i (lo + n) with hlt | hge
        · exact h4 i hi hlt
        · obtain rfl : i = lo + n := by omega
          simp [hc]

theorem dataIs_iff_reads {s : State} {seq : List Byte} : s.DataIs seq ↔ Reads s.data 0 s.len.toNat seq := by
  simp [State.DataIs, Reads]

/-- A written range holds some sequence. -/
theorem exists_reads {m : Memory} {j n : Nat} (h : ∀ k, k < n → m.read (j + k) ≠ none) : ∃ seq, Reads m j n seq := by
  cases hr : readUp m j n with
  | ok seq => exact ⟨seq, readUp_ok.1 hr⟩
  | error k =>
    obtain ⟨h1, h2, h3, -⟩ := readUp_error hr
    exact absurd (by rw [Nat.add_sub_cancel' h1]; exact h3) (h (k - j) (by omega))

theorem reads_split {m : Memory} {n pos : Nat} {seq : List Byte} (h : Reads m 0 n seq) (hp : pos ≤ n) :
    Reads m 0 pos (seq.take pos) ∧ Reads m pos (n - pos) (seq.drop pos) := by
  obtain ⟨h1, h2⟩ := h
  refine ⟨⟨by simp; omega, fun k hk => ?_⟩, ⟨by simp; omega, fun k hk => ?_⟩⟩
  · rw [List.getElem?_take_of_lt hk]; exact h2 k (by omega)
  · rw [List.getElem?_drop, ← h2 (pos + k) (by omega)]; congr 1; omega

/-- What the steps shared by FORGE and FORGE.APPEND do on a fully written `DATA[0:n]`. -/
theorem forgeAt_next {s : State} {n pos : Nat} {seq : List Byte} (h : Reads s.data 0 n seq) (hp : pos ≤ n) :
    forgeAt s n pos = .next (s.setForged (forgeOut s.ft s.rt s.wanted seq pos)
      (forgePatch s.ft s.rt s.wanted seq pos) (BitVec.ofNat 32 (n + 4))).complete := by
  obtain ⟨h1, h2⟩ := reads_split h hp
  simp only [forgeAt, readUp_ok.2 h1, readDown_ok.2 h2, List.take_append_drop, forgeOut]

/-- What they do where a byte is unwritten: the model fault at such a byte. -/
theorem forgeAt_fault {s : State} {n pos : Nat} (hp : pos ≤ n) {j : Nat} (hj : j < n) (h : s.data.read j = none) :
    ∃ k, k < n ∧ s.data.read k = none ∧ forgeAt s n pos = engineFault k := by
  simp only [forgeAt]
  cases hu : readUp s.data 0 pos with
  | error k => obtain ⟨-, h2, h3, -⟩ := readUp_error hu; exact ⟨k, by omega, h3, rfl⟩
  | ok pre =>
    dsimp only
    cases hd : readDown s.data pos (n - pos) with
    | error k => obtain ⟨-, h2, h3, -⟩ := readDown_error hd; exact ⟨k, by omega, h3, rfl⟩
    | ok suf =>
      have hr := reads_append (readUp_ok.1 hu) (by rw [Nat.zero_add]; exact readDown_ok.1 hd)
      exact absurd (by rw [Nat.zero_add]; exact h) (reads_written hr j (by omega))

/-- Every byte of a range is written, or there is an unwritten one in it. -/
theorem reads_or_unwritten (m : Memory) (n : Nat) :
    (∃ seq, Reads m 0 n seq) ∨ ∃ j, j < n ∧ m.read j = none := by
  cases h : readUp m 0 n with
  | ok seq => exact .inl ⟨seq, readUp_ok.1 h⟩
  | error k => obtain ⟨-, h2, h3, -⟩ := readUp_error h; exact .inr ⟨k, by omega, h3⟩

/-- Everything a forge command at a checked length and position can do. -/
theorem forgeAt_cases (s : State) {n pos : Nat} (hp : pos ≤ n) :
    (∃ seq, Reads s.data 0 n seq ∧
      forgeAt s n pos = .next (s.setForged (forgeOut s.ft s.rt s.wanted seq pos)
        (forgePatch s.ft s.rt s.wanted seq pos) (BitVec.ofNat 32 (n + 4))).complete) ∨
    ∃ j, j < n ∧ s.data.read j = none ∧ forgeAt s n pos = engineFault j := by
  rcases reads_or_unwritten s.data n with ⟨seq, h⟩ | ⟨j, hj, h⟩
  · exact .inl ⟨seq, h, forgeAt_next h hp⟩
  · obtain ⟨k, hk, h1, h2⟩ := forgeAt_fault hp hj h
    exact .inr ⟨k, hk, h1, h2⟩

/-- Everything CRC can do. -/
theorem execCrc_cases (s : State) :
    (s.maxlen.toNat < s.len.toNat ∧ execCrc s = raiseCmdError .lengthOutOfRange s) ∨
    (s.len.toNat ≤ s.maxlen.toNat ∧ ∃ seq, s.DataIs seq ∧ execCrc s = .next (s.setResult (crc32 s.ft seq)).complete) ∨
    (s.len.toNat ≤ s.maxlen.toNat ∧ ∃ j, j < s.len.toNat ∧ s.data.read j = none ∧ execCrc s = engineFault j) := by
  by_cases hl : s.maxlen.toNat < s.len.toNat
  · exact .inl ⟨hl, by simp [execCrc, State.lenTooLong, hl]⟩
  · right
    cases hr : readUp s.data 0 s.len.toNat with
    | ok seq => exact .inl ⟨by omega, seq, dataIs_iff_reads.2 (readUp_ok.1 hr),
        by simp [execCrc, State.lenTooLong, hl, hr]⟩
    | error j =>
      obtain ⟨-, h2, h3, -⟩ := readUp_error hr
      exact .inr ⟨by omega, j, by omega, h3, by simp [execCrc, State.lenTooLong, hl, hr]⟩

/-- Everything FORGE can do. -/
theorem execForge_cases (s : State) :
    (s.maxlen.toNat < s.len.toNat ∧ execForge s = raiseCmdError .lengthOutOfRange s) ∨
    (s.len.toNat ≤ s.maxlen.toNat ∧ s.len.toNat < s.pos.toNat ∧ execForge s = raiseCmdError .invalidArgument s) ∨
    (s.len.toNat ≤ s.maxlen.toNat ∧ s.pos.toNat ≤ s.len.toNat ∧
      execForge s = forgeAt s s.len.toNat s.pos.toNat) := by
  by_cases hl : s.maxlen.toNat < s.len.toNat
  · exact .inl ⟨hl, by simp [execForge, State.lenTooLong, hl]⟩
  · by_cases hp : s.len.toNat < s.pos.toNat
    · exact .inr (.inl ⟨by omega, hp, by simp [execForge, State.lenTooLong, State.posPastEnd, hl, hp]⟩)
    · exact .inr (.inr ⟨by omega, by omega, by simp [execForge, State.lenTooLong, State.posPastEnd, hl, hp]⟩)

/-- Everything FORGE.APPEND can do. -/
theorem execForgeAppend_cases (s : State) :
    (s.maxlen.toNat < s.len.toNat ∧ execForgeAppend s = raiseCmdError .lengthOutOfRange s) ∨
    (s.len.toNat ≤ s.maxlen.toNat ∧ execForgeAppend s = forgeAt s s.len.toNat s.len.toNat) := by
  by_cases hl : s.maxlen.toNat < s.len.toNat
  · exact .inl ⟨hl, by simp [execForgeAppend, State.lenTooLong, hl]⟩
  · exact .inr ⟨by omega, by simp [execForgeAppend, State.lenTooLong, hl]⟩

theorem raiseCmdError_next {code : ErrCode} {s t : State} (h : raiseCmdError code s = .next t) :
    t = { s with err := errBits code } := by simpa [raiseCmdError, eq_comm] using h

/-- Entry `i` of the table of a function is that function at `i`. -/
theorem entriesFrom_getElem (e : Byte → Word) (i n k : Nat) (h : k < (entriesFrom e i n).length) :
    (entriesFrom e i n)[k] = e (BitVec.ofNat 8 (i + k)) := by
  induction n generalizing i k with
  | zero => simp [entriesFrom] at h
  | succ n ih =>
    cases k with
    | zero => simp [entriesFrom]
    | succ k => simp only [entriesFrom, List.getElem_cons_succ]; rw [ih]; congr 2; omega

theorem entry_tableOf (e : Byte → Word) (i : Byte) : entry (tableOf e) i = e i := by
  simp only [entry, tableOf, Vector.getElem_mk, List.getElem_toArray, entriesFrom_getElem, Nat.zero_add,
    BitVec.ofNat_toNat, BitVec.setWidth_eq]

@[simp] theorem entry_ftTable (p : Word) (i : Byte) : entry (ftTable p) i = ftEntry p i := entry_tableOf _ i
@[simp] theorem entry_rtTable (p : Word) (i : Byte) : entry (rtTable p) i = rtEntry p i := entry_tableOf _ i

end Sys2Proof.Machine
end

