-- ==== Sys2Proof/Laws/Step.lean ====
section
/-! SUPPORT. Everything a host access and a step can do to the block, said once. -/

namespace Sys2Proof.Machine

theorem regionOf_cmd {m a : Nat} (h : regionOf m a = .cmd) : a = 0 := by
  simp only [regionOf] at h
  split at h
  · simp only [registerMap, getAt] at h
    repeat' split at h
    all_goals simp_all
  all_goals (repeat' split at h) <;> simp at h

/-- A DATA offset lies in the mapped part of the window (R55). -/
theorem regionOf_data {m a i : Nat} (h : regionOf m a = .data i) : a = dataBase + i ∧ i < m := by
  simp only [regionOf] at h
  split at h
  · simp only [registerMap, getAt] at h
    repeat' split at h
    all_goals simp_all
  · repeat' split at h
    all_goals simp_all [dataBase, outBase]
    all_goals omega

/-- A legal write of DATA: one byte, or four bytes at a multiple of 4. -/
theorem writeOk_data {m a n i : Nat} (hr : regionOf m a = .data i) (h : writeOk m a n = true) :
    n = 1 ∨ (n = 4 ∧ a % 4 = 0) := by
  simpa [writeOk, widthOk, hr, accessRow] using h

/-- A legal write of CMD is four bytes at offset 0 (R59). -/
theorem writeOk_cmd {m a n : Nat} (hr : regionOf m a = .cmd) (h : writeOk m a n = true) : n = 4 ∧ a = 0 := by
  refine ⟨?_, regionOf_cmd hr⟩
  simp only [writeOk, widthOk, hr, accessRow] at h
  simp at h; exact h.1

/-- Everything a host write that completes can do (R61). -/
theorem memWrite_next {s t : State} {a n : Nat} {v : Word} (h : memWrite s a n v = .next t) :
    (a = 0 ∧ n = 4 ∧ commandWrite v s = .next t) ∨ (∃ r, t = writeRw s v r) ∨
    (∃ i, i < s.maxlen.toNat ∧ (n = 1 ∨ (n = 4 ∧ i % 4 = 0)) ∧ a = dataBase + i ∧ t = writeData s i n v) := by
  simp only [memWrite] at h
  split at h
  · next hw =>
    split at h
    · next hr => exact .inl ⟨(writeOk_cmd hr hw).2, (writeOk_cmd hr hw).1, h⟩
    · next r hr => simp only [Host.Outcome.next.injEq] at h; exact .inr (.inl ⟨r, h.symm⟩)
    · next i hr =>
      simp only [Host.Outcome.next.injEq] at h
      obtain ⟨ha, hi⟩ := regionOf_data hr
      refine .inr (.inr ⟨i, hi, ?_, ha, h.symm⟩)
      rcases writeOk_data hr hw with h1 | ⟨h1, h2⟩
      · exact .inl h1
      · exact .inr ⟨h1, by rw [ha, dataBase] at h2; omega⟩
    all_goals simp at h
  · simp at h

theorem thenAdvance_next {o : Host.Outcome State Fault Refusal} {t : State} (h : thenAdvance o = .next t) :
    ∃ u, o = .next u ∧ t = u.advance := by
  cases o with
  | next u => exact ⟨u, rfl, by simpa [thenAdvance, eq_comm] using h⟩
  | fault f => simp [thenAdvance] at h
  | refused r => simp [thenAdvance] at h

/-- What one step can do to the block, the host's side left aside: nothing, a command, a register write, a DATA write,
or a reset. -/
inductive BlockMove (s : State) : State → Prop where
  | none : BlockMove s s
  | command (w : Word) (u : State) (issued : s.Issues w) (ran : commandWrite w s = .next u) : BlockMove s u
  | register (v : Word) (r : RwReg) : BlockMove s (writeRw s v r)
  | data (i n : Nat) (v : Word) (mapped : i < s.maxlen.toNat) (width : n = 1 ∨ (n = 4 ∧ i % 4 = 0)) :
      BlockMove s (writeData s i n v)
  | reset (op : s.Resets) : BlockMove s s.blockReset

/-- The host's side moves on its own: only the fields of `host` differ. -/
theorem sameBlock_advance (u : State) : SameBlock u u.advance := rfl

theorem sameBlock_refl (u : State) : SameBlock u u := rfl

theorem jump_next {s t : State} {l : Label} (h : jump s l = .next t) : SameBlock s t := by
  simp only [jump] at h
  split at h
  · simp only [Host.Outcome.next.injEq] at h; subst h; rfl
  · simp at h

/-- Everything a step that completes can do to the block. -/
theorem step_blockMove {s t : State} (h : step s = .next t) : ∃ u, BlockMove s u ∧ SameBlock u t := by
  simp only [step] at h
  split at h
  · next op hop =>
    cases op with
    | wr n off v =>
      simp only [runOp, hostWrite] at h
      split at h
      · next a ha =>
        obtain ⟨u, hu, rfl⟩ := thenAdvance_next h
        rcases memWrite_next hu with ⟨rfl, rfl, hc⟩ | ⟨r, rfl⟩ | ⟨i, hi, hn, -, rfl⟩
        · exact ⟨u, .command _ u ⟨off, v, hop, by simpa using ha, rfl⟩ hc, rfl⟩
        · exact ⟨_, .register _ r, rfl⟩
        · exact ⟨_, .data i n _ hi hn, rfl⟩
      · simp at h
    | rd n off x =>
      simp only [runOp, hostRead] at h
      split at h
      · split at h
        · simp only [Host.Outcome.next.injEq] at h; subst h; exact ⟨s, .none, rfl⟩
        · simp at h
      · simp at h
    | set x e => simp only [runOp, Host.Outcome.next.injEq] at h; subst h; exact ⟨s, .none, rfl⟩
    | ifEq a b l =>
      simp only [runOp] at h
      split at h
      · exact ⟨s, .none, jump_next h⟩
      · simp only [Host.Outcome.next.injEq] at h; subst h; exact ⟨s, .none, rfl⟩
    | ifNe a b l =>
      simp only [runOp] at h
      split at h
      · exact ⟨s, .none, jump_next h⟩
      · simp only [Host.Outcome.next.injEq] at h; subst h; exact ⟨s, .none, rfl⟩
    | goto l => exact ⟨s, .none, jump_next h⟩
    | halt => simp only [runOp, Host.Outcome.next.injEq] at h; subst h; exact ⟨s, .none, rfl⟩
    | reset =>
      simp only [runOp, Host.Outcome.next.injEq] at h; subst h; exact ⟨_, .reset (.inl hop), rfl⟩
    | resetDuring v =>
      simp only [runOp, Host.Outcome.next.injEq] at h; subst h; exact ⟨_, .reset (.inr ⟨v, hop⟩), rfl⟩
  · simp only [Host.Outcome.next.injEq] at h; subst h; exact ⟨s, .none, rfl⟩

theorem forgeAt_host {s t : State} {n pos : Nat} (hp : pos ≤ n) (h : forgeAt s n pos = .next t) : t.host = s.host := by
  rcases forgeAt_cases s hp with ⟨_, -, e⟩ | ⟨_, -, -, e⟩ <;> rw [e] at h
  · simp only [Host.Outcome.next.injEq] at h; subst h; rfl
  · simp [engineFault] at h

/-- No command touches the host. -/
theorem exec_host {i : Instr} {s t : State} (h : exec i s = .next t) : t.host = s.host := by
  cases i with
  | build => simp only [exec, execBuild, Host.Outcome.next.injEq] at h; subst h; rfl
  | crc =>
    simp only [exec] at h
    rcases execCrc_cases s with ⟨-, e⟩ | ⟨-, _, -, e⟩ | ⟨-, _, -, -, e⟩ <;> rw [e] at h
    · rw [raiseCmdError_next h]
    · simp only [Host.Outcome.next.injEq] at h; subst h; rfl
    · simp [engineFault] at h
  | forgeAppend =>
    simp only [exec] at h
    rcases execForgeAppend_cases s with ⟨-, e⟩ | ⟨-, e⟩ <;> rw [e] at h
    · rw [raiseCmdError_next h]
    · exact forgeAt_host (Nat.le_refl _) h
  | forge =>
    simp only [exec] at h
    rcases execForge_cases s with ⟨-, e⟩ | ⟨-, -, e⟩ | ⟨-, hp, e⟩ <;> rw [e] at h
    · rw [raiseCmdError_next h]
    · rw [raiseCmdError_next h]
    · exact forgeAt_host hp h

/-- No host write touches the host's own side. -/
theorem memWrite_host {s t : State} {a n : Nat} {v : Word} (h : memWrite s a n v = .next t) : t.host = s.host := by
  rcases memWrite_next h with ⟨-, -, hc⟩ | ⟨r, rfl⟩ | ⟨i, -, -, -, rfl⟩
  · simp only [commandWrite] at hc
    split at hc
    · exact exec_host hc
    · rw [raiseCmdError_next hc]
  · simp
  · simp

theorem jump_vars {s t : State} {l : Label} (h : jump s l = .next t) : t.host.vars = s.host.vars := by
  simp only [jump] at h
  split at h
  · simp only [Host.Outcome.next.injEq] at h; subst h; rfl
  · simp at h

/-- A step keeps the host variables as they are, or assigns one of them. -/
theorem step_vars {s t : State} (h : step s = .next t) :
    t.host.vars = s.host.vars ∨ ∃ x v, t.host.vars = putAt s.host.vars x v := by
  simp only [step] at h
  split at h
  · next op hop =>
    cases op with
    | wr n off v =>
      simp only [runOp, hostWrite] at h
      split at h
      · obtain ⟨u, hu, rfl⟩ := thenAdvance_next h
        left; simp [memWrite_host hu]
      · simp at h
    | rd n off x =>
      simp only [runOp, hostRead] at h
      split at h
      · split at h
        · next v _ => simp only [Host.Outcome.next.injEq] at h; subst h; exact .inr ⟨x, v.toNat, rfl⟩
        · simp at h
      · simp at h
    | set x e => simp only [runOp, Host.Outcome.next.injEq] at h; subst h; exact .inr ⟨x, s.eval e, rfl⟩
    | ifEq a b l =>
      simp only [runOp] at h
      split at h
      · exact .inl (jump_vars h)
      · simp only [Host.Outcome.next.injEq] at h; subst h; exact .inl rfl
    | ifNe a b l =>
      simp only [runOp] at h
      split at h
      · exact .inl (jump_vars h)
      · simp only [Host.Outcome.next.injEq] at h; subst h; exact .inl rfl
    | goto l => exact .inl (jump_vars h)
    | halt => simp only [runOp, Host.Outcome.next.injEq] at h; subst h; exact .inl rfl
    | reset => simp only [runOp, Host.Outcome.next.injEq] at h; subst h; exact .inl rfl
    | resetDuring v => simp only [runOp, Host.Outcome.next.injEq] at h; subst h; exact .inl rfl
  · simp only [Host.Outcome.next.injEq] at h; subst h; exact .inl rfl

/-- The host variables keep their canonical form. -/
theorem step_vars_rising {s t : State} (h : step s = .next t) (hr : rising s.host.vars = true) :
    rising t.host.vars = true := by
  rcases step_vars h with e | ⟨x, v, e⟩ <;> rw [e]
  · exact hr
  · exact rising_putAt _ _ _ hr

@[simp] theorem blockOffset_systemAddress (off : Nat) : blockOffset (systemAddress off) = some off := by
  simp [blockOffset, systemAddress]

/-- An access at a system address of the block is the access at its offset (R7). -/
theorem systemRead_systemAddress (s : State) (off n : Nat) :
    systemRead s (systemAddress off) n = some (memRead s off n) := by simp [systemRead]

theorem systemWrite_systemAddress (s : State) (off n : Nat) (v : Word) :
    systemWrite s (systemAddress off) n v = some (memWrite s off n v) := by simp [systemWrite]

/-- A number of 32 bits goes to the port unchanged. -/
theorem portWord_toNat (w : Word) : portWord w.toNat = w := by
  have := w.isLt
  simp only [portWord]
  rw [if_pos ⟨by omega, by exact_mod_cast this⟩]
  simp

end Sys2Proof.Machine
end

