-- ==== Sys2Proof/Laws/PerInstr.lean ====
section
/-! SUPPORT. One fact for every command, as syntax: the fields of its word are those of the opcode map (R81, R83). -/

namespace Sys2Proof.Laws.CommandWord

/-- The word of a command has RSVD zero, and its OP and P fields are the row's. -/
def Statement (i : Instr) : Prop :=
  rsvdField (encode i) = 0 ∧ opField (encode i) = opOf i ∧ pField (encode i) = pOf i

theorem build : Statement .build := by unfold Statement; decide
theorem crc : Statement .crc := by unfold Statement; decide
theorem forgeAppend : Statement .forgeAppend := by unfold Statement; decide
theorem forge : Statement .forge := by unfold Statement; decide

end Sys2Proof.Laws.CommandWord
end

