-- ==== Sys2Proof/Tests/Slice0.lean ====
section
/-! SUPPORT. Tests on fixed values, every expected result from the spec (95_test_vectors.md, or the rule named), the
smoke tests of the checks of WellFormed, and a witness for the hypotheses of each statement. -/

namespace Sys2Proof.Tests

open Sys2Proof Sys2Proof.Machine

/-! ### Helpers -/

/-- An outcome is a next state that passes a check. -/
def nextWith (o : Host.Outcome State Fault Refusal) (p : State → Bool) : Bool :=
  match o with
  | .next s => p s
  | .fault _ | .refused _ => false

/-- A byte buffer that holds a sequence from index 0. -/
def holding (bs : List Byte) : Memory := Memory.writeBytes [] 0 bs

/-- The reset state with MAXLEN = 16, DATA holding `bs`, LEN its length, and POS = `p`. -/
def loaded (bs : List Byte) (p : Word) : State :=
  { State.resetAt 16 with data := holding bs, len := BitVec.ofNat 32 bs.length, pos := p }

/-- A state whose host is about to run one operation. -/
def about (op : HostOp) (s : State) : State :=
  { s with host := { program := [{ label := some 7, op := op }], position := 0, vars := [] } }

/-- "helloworld". -/
def helloworld : List Byte := [0x68, 0x65, 0x6C, 0x6C, 0x6F, 0x77, 0x6F, 0x72, 0x6C, 0x64]

/-- "123456789". -/
def digits : List Byte := [0x31, 0x32, 0x33, 0x34, 0x35, 0x36, 0x37, 0x38, 0x39]

/-- The reset state with the tables of another polynomial. -/
def withTables (p : Word) (s : State) : State := s.buildTables p

/-! ### Ill-formed terms are refused -/

theorem test_maxlen_below_4 : maxlenLegal 0 = false := by decide
theorem test_maxlen_above_limit : maxlenLegal 0x10000 = false := by decide
theorem test_maxlen_not_multiple_of_4 : maxlenLegal 18 = false := by decide
theorem test_maxlen_limits : maxlenLegal 4 = true ∧ maxlenLegal 0xFFFC = true := by decide
theorem test_slice_upside_down : HostExpr.wf (.add (.slice 0 7 8) (.num 1)) = false := by decide
theorem test_op_with_bad_slice : HostOp.wf (.wr32 (.num 0) (.slice 0 0 1)) = false := by decide
theorem test_program_bad_expression : programWf [{ label := none, op := .set 0 (.slice 0 0 1) }] = false := by decide
theorem test_program_label_twice :
    programWf [{ label := some 1, op := .halt }, { label := some 1, op := .halt }] = false := by decide
theorem test_program_label_missing : programWf [{ label := some 1, op := .goto 2 }] = false := by decide
theorem test_program_well_formed : programWf [{ label := some 1, op := .goto 1 }] = true := by decide
theorem test_every_command_well_formed :
    Instr.wf .build = true ∧ Instr.wf .crc = true ∧ Instr.wf .forgeAppend = true ∧ Instr.wf .forge = true := by decide

/-! ### Command words, bit by bit: RSVD (27 bits), P, OP (R81, R83) -/

theorem test_decode_build : decode 0b00000000_00000000_00000000_000_0_0001 = .command .build := by decide
theorem test_decode_crc : decode 0b00000000_00000000_00000000_000_0_0010 = .command .crc := by decide
theorem test_decode_forge_append : decode 0b00000000_00000000_00000000_000_0_0011 = .command .forgeAppend := by decide
theorem test_decode_forge : decode 0b00000000_00000000_00000000_000_1_0011 = .command .forge := by decide
/-- R85, one word of each kind. -/
theorem test_decode_illegal : decode 0x0000000F = .illegal .reservedOp ∧ decode 0x00000011 = .illegal .positionFlag ∧
    decode 0x80000013 = .illegal .reservedBits := by decide
theorem test_decodeTableWord : decodeTableWord 32 0x13 = some .forge ∧ decodeTableWord 32 0x12 = none ∧
    decodeTableWord 64 0x13 = none := by decide
/-- Each command runs as the first one after reset. -/
theorem test_first_command_after_reset :
    nextWith (step (State.reset.withFetchWord 32 1)) (fun t => t.err == 0) = true ∧
    nextWith (step (State.reset.withFetchWord 32 2)) (fun t => t.err == 0) = true ∧
    nextWith (step (State.reset.withFetchWord 32 3)) (fun t => t.err == 0) = true ∧
    nextWith (step (State.reset.withFetchWord 32 0x13)) (fun t => t.err == 0) = true := by decide

/-! ### Tables (V-T1, V-T2, V-T3) -/

/-! FT of `p = 0x82F63B78`, as 95_test_vectors.md V-T3 prints it, eight entries a row, in quarters. -/

def publishedFt0 : List (List Word) :=
  [[0x00000000, 0xF26B8303, 0xE13B70F7, 0x1350F3F4, 0xC79A971F, 0x35F1141C, 0x26A1E7E8, 0xD4CA64EB],
   [0x8AD958CF, 0x78B2DBCC, 0x6BE22838, 0x9989AB3B, 0x4D43CFD0, 0xBF284CD3, 0xAC78BF27, 0x5E133C24],
   [0x105EC76F, 0xE235446C, 0xF165B798, 0x030E349B, 0xD7C45070, 0x25AFD373, 0x36FF2087, 0xC494A384],
   [0x9A879FA0, 0x68EC1CA3, 0x7BBCEF57, 0x89D76C54, 0x5D1D08BF, 0xAF768BBC, 0xBC267848, 0x4E4DFB4B],
   [0x20BD8EDE, 0xD2D60DDD, 0xC186FE29, 0x33ED7D2A, 0xE72719C1, 0x154C9AC2, 0x061C6936, 0xF477EA35],
   [0xAA64D611, 0x580F5512, 0x4B5FA6E6, 0xB93425E5, 0x6DFE410E, 0x9F95C20D, 0x8CC531F9, 0x7EAEB2FA],
   [0x30E349B1, 0xC288CAB2, 0xD1D83946, 0x23B3BA45, 0xF779DEAE, 0x05125DAD, 0x1642AE59, 0xE4292D5A],
   [0xBA3A117E, 0x4851927D, 0x5B016189, 0xA96AE28A, 0x7DA08661, 0x8FCB0562, 0x9C9BF696, 0x6EF07595]]
def publishedFt1 : List (List Word) :=
  [[0x417B1DBC, 0xB3109EBF, 0xA0406D4B, 0x522BEE48, 0x86E18AA3, 0x748A09A0, 0x67DAFA54, 0x95B17957],
   [0xCBA24573, 0x39C9C670, 0x2A993584, 0xD8F2B687, 0x0C38D26C, 0xFE53516F, 0xED03A29B, 0x1F682198],
   [0x5125DAD3, 0xA34E59D0, 0xB01EAA24, 0x42752927, 0x96BF4DCC, 0x64D4CECF, 0x77843D3B, 0x85EFBE38],
   [0xDBFC821C, 0x2997011F, 0x3AC7F2EB, 0xC8AC71E8, 0x1C661503, 0xEE0D9600, 0xFD5D65F4, 0x0F36E6F7],
   [0x61C69362, 0x93AD1061, 0x80FDE395, 0x72966096, 0xA65C047D, 0x5437877E, 0x4767748A, 0xB50CF789],
   [0xEB1FCBAD, 0x197448AE, 0x0A24BB5A, 0xF84F3859, 0x2C855CB2, 0xDEEEDFB1, 0xCDBE2C45, 0x3FD5AF46],
   [0x7198540D, 0x83F3D70E, 0x90A324FA, 0x62C8A7F9, 0xB602C312, 0x44694011, 0x5739B3E5, 0xA55230E6],
   [0xFB410CC2, 0x092A8FC1, 0x1A7A7C35, 0xE811FF36, 0x3CDB9BDD, 0xCEB018DE, 0xDDE0EB2A, 0x2F8B6829]]
def publishedFt2 : List (List Word) :=
  [[0x82F63B78, 0x709DB87B, 0x63CD4B8F, 0x91A6C88C, 0x456CAC67, 0xB7072F64, 0xA457DC90, 0x563C5F93],
   [0x082F63B7, 0xFA44E0B4, 0xE9141340, 0x1B7F9043, 0xCFB5F4A8, 0x3DDE77AB, 0x2E8E845F, 0xDCE5075C],
   [0x92A8FC17, 0x60C37F14, 0x73938CE0, 0x81F80FE3, 0x55326B08, 0xA759E80B, 0xB4091BFF, 0x466298FC],
   [0x1871A4D8, 0xEA1A27DB, 0xF94AD42F, 0x0B21572C, 0xDFEB33C7, 0x2D80B0C4, 0x3ED04330, 0xCCBBC033],
   [0xA24BB5A6, 0x502036A5, 0x4370C551, 0xB11B4652, 0x65D122B9, 0x97BAA1BA, 0x84EA524E, 0x7681D14D],
   [0x2892ED69, 0xDAF96E6A, 0xC9A99D9E, 0x3BC21E9D, 0xEF087A76, 0x1D63F975, 0x0E330A81, 0xFC588982],
   [0xB21572C9, 0x407EF1CA, 0x532E023E, 0xA145813D, 0x758FE5D6, 0x87E466D5, 0x94B49521, 0x66DF1622],
   [0x38CC2A06, 0xCAA7A905, 0xD9F75AF1, 0x2B9CD9F2, 0xFF56BD19, 0x0D3D3E1A, 0x1E6DCDEE, 0xEC064EED]]
def publishedFt3 : List (List Word) :=
  [[0xC38D26C4, 0x31E6A5C7, 0x22B65633, 0xD0DDD530, 0x0417B1DB, 0xF67C32D8, 0xE52CC12C, 0x1747422F],
   [0x49547E0B, 0xBB3FFD08, 0xA86F0EFC, 0x5A048DFF, 0x8ECEE914, 0x7CA56A17, 0x6FF599E3, 0x9D9E1AE0],
   [0xD3D3E1AB, 0x21B862A8, 0x32E8915C, 0xC083125F, 0x144976B4, 0xE622F5B7, 0xF5720643, 0x07198540],
   [0x590AB964, 0xAB613A67, 0xB831C993, 0x4A5A4A90, 0x9E902E7B, 0x6CFBAD78, 0x7FAB5E8C, 0x8DC0DD8F],
   [0xE330A81A, 0x115B2B19, 0x020BD8ED, 0xF0605BEE, 0x24AA3F05, 0xD6C1BC06, 0xC5914FF2, 0x37FACCF1],
   [0x69E9F0D5, 0x9B8273D6, 0x88D28022, 0x7AB90321, 0xAE7367CA, 0x5C18E4C9, 0x4F48173D, 0xBD23943E],
   [0xF36E6F75, 0x0105EC76, 0x12551F82, 0xE03E9C81, 0x34F4F86A, 0xC69F7B69, 0xD5CF889D, 0x27A40B9E],
   [0x79B737BA, 0x8BDCB4B9, 0x988C474D, 0x6AE7C44E, 0xBE2DA0A5, 0x4C4623A6, 0x5F16D052, 0xAD7D5351]]

/-! RT of `p = 0x82F63B78`, as 95_test_vectors.md V-T3 prints it, eight entries a row, in quarters. -/

def publishedRt0 : List (List Word) :=
  [[0x00000000, 0x05EC76F1, 0x0BD8EDE2, 0x0E349B13, 0x17B1DBC4, 0x125DAD35, 0x1C693626, 0x198540D7],
   [0x2F63B788, 0x2A8FC179, 0x24BB5A6A, 0x21572C9B, 0x38D26C4C, 0x3D3E1ABD, 0x330A81AE, 0x36E6F75F],
   [0x5EC76F10, 0x5B2B19E1, 0x551F82F2, 0x50F3F403, 0x4976B4D4, 0x4C9AC225, 0x42AE5936, 0x47422FC7],
   [0x71A4D898, 0x7448AE69, 0x7A7C357A, 0x7F90438B, 0x6615035C, 0x63F975AD, 0x6DCDEEBE, 0x6821984F],
   [0xBD8EDE20, 0xB862A8D1, 0xB65633C2, 0xB3BA4533, 0xAA3F05E4, 0xAFD37315, 0xA1E7E806, 0xA40B9EF7],
   [0x92ED69A8, 0x97011F59, 0x9935844A, 0x9CD9F2BB, 0x855CB26C, 0x80B0C49D, 0x8E845F8E, 0x8B68297F],
   [0xE349B130, 0xE6A5C7C1, 0xE8915CD2, 0xED7D2A23, 0xF4F86AF4, 0xF1141C05, 0xFF208716, 0xFACCF1E7],
   [0xCC2A06B8, 0xC9C67049, 0xC7F2EB5A, 0xC21E9DAB, 0xDB9BDD7C, 0xDE77AB8D, 0xD043309E, 0xD5AF466F]]
def publishedRt1 : List (List Word) :=
  [[0x7EF1CAB1, 0x7B1DBC40, 0x75292753, 0x70C551A2, 0x69401175, 0x6CAC6784, 0x6298FC97, 0x67748A66],
   [0x51927D39, 0x547E0BC8, 0x5A4A90DB, 0x5FA6E62A, 0x4623A6FD, 0x43CFD00C, 0x4DFB4B1F, 0x48173DEE],
   [0x2036A5A1, 0x25DAD350, 0x2BEE4843, 0x2E023EB2, 0x37877E65, 0x326B0894, 0x3C5F9387, 0x39B3E576],
   [0x0F551229, 0x0AB964D8, 0x048DFFCB, 0x0161893A, 0x18E4C9ED, 0x1D08BF1C, 0x133C240F, 0x16D052FE],
   [0xC37F1491, 0xC6936260, 0xC8A7F973, 0xCD4B8F82, 0xD4CECF55, 0xD122B9A4, 0xDF1622B7, 0xDAFA5446],
   [0xEC1CA319, 0xE9F0D5E8, 0xE7C44EFB, 0xE228380A, 0xFBAD78DD, 0xFE410E2C, 0xF075953F, 0xF599E3CE],
   [0x9DB87B81, 0x98540D70, 0x96609663, 0x938CE092, 0x8A09A045, 0x8FE5D6B4, 0x81D14DA7, 0x843D3B56],
   [0xB2DBCC09, 0xB737BAF8, 0xB90321EB, 0xBCEF571A, 0xA56A17CD, 0xA086613C, 0xAEB2FA2F, 0xAB5E8CDE]]
def publishedRt2 : List (List Word) :=
  [[0xFDE39562, 0xF80FE393, 0xF63B7880, 0xF3D70E71, 0xEA524EA6, 0xEFBE3857, 0xE18AA344, 0xE466D5B5],
   [0xD28022EA, 0xD76C541B, 0xD958CF08, 0xDCB4B9F9, 0xC531F92E, 0xC0DD8FDF, 0xCEE914CC, 0xCB05623D],
   [0xA324FA72, 0xA6C88C83, 0xA8FC1790, 0xAD106161, 0xB49521B6, 0xB1795747, 0xBF4DCC54, 0xBAA1BAA5],
   [0x8C474DFA, 0x89AB3B0B, 0x879FA018, 0x8273D6E9, 0x9BF6963E, 0x9E1AE0CF, 0x902E7BDC, 0x95C20D2D],
   [0x406D4B42, 0x45813DB3, 0x4BB5A6A0, 0x4E59D051, 0x57DC9086, 0x5230E677, 0x5C047D64, 0x59E80B95],
   [0x6F0EFCCA, 0x6AE28A3B, 0x64D61128, 0x613A67D9, 0x78BF270E, 0x7D5351FF, 0x7367CAEC, 0x768BBC1D],
   [0x1EAA2452, 0x1B4652A3, 0x1572C9B0, 0x109EBF41, 0x091BFF96, 0x0CF78967, 0x02C31274, 0x072F6485],
   [0x31C993DA, 0x3425E52B, 0x3A117E38, 0x3FFD08C9, 0x2678481E, 0x23943EEF, 0x2DA0A5FC, 0x284CD30D]]
def publishedRt3 : List (List Word) :=
  [[0x83125FD3, 0x86FE2922, 0x88CAB231, 0x8D26C4C0, 0x94A38417, 0x914FF2E6, 0x9F7B69F5, 0x9A971F04],
   [0xAC71E85B, 0xA99D9EAA, 0xA7A905B9, 0xA2457348, 0xBBC0339F, 0xBE2C456E, 0xB018DE7D, 0xB5F4A88C],
   [0xDDD530C3, 0xD8394632, 0xD60DDD21, 0xD3E1ABD0, 0xCA64EB07, 0xCF889DF6, 0xC1BC06E5, 0xC4507014],
   [0xF2B6874B, 0xF75AF1BA, 0xF96E6AA9, 0xFC821C58, 0xE5075C8F, 0xE0EB2A7E, 0xEEDFB16D, 0xEB33C79C],
   [0x3E9C81F3, 0x3B70F702, 0x35446C11, 0x30A81AE0, 0x292D5A37, 0x2CC12CC6, 0x22F5B7D5, 0x2719C124],
   [0x11FF367B, 0x1413408A, 0x1A27DB99, 0x1FCBAD68, 0x064EEDBF, 0x03A29B4E, 0x0D96005D, 0x087A76AC],
   [0x605BEEE3, 0x65B79812, 0x6B830301, 0x6E6F75F0, 0x77EA3527, 0x720643D6, 0x7C32D8C5, 0x79DEAE34],
   [0x4F38596B, 0x4AD42F9A, 0x44E0B489, 0x410CC278, 0x588982AF, 0x5D65F45E, 0x53516F4D, 0x56BD19BC]]

/-- Entries `8 * r` on of a table are the rows given. -/
def rowsAre (t : Table) (r : Nat) : List (List Word) → Bool
  | [] => true
  | row :: rows =>
    (List.range 8).map (fun k => entry t (BitVec.ofNat 8 (8 * r + k))) == row && rowsAre t (r + 1) rows

theorem test_reset_ft_is_published :
    rowsAre State.reset.ft 0 publishedFt0 = true ∧
    rowsAre State.reset.ft 8 publishedFt1 = true ∧
    rowsAre State.reset.ft 16 publishedFt2 = true ∧
    rowsAre State.reset.ft 24 publishedFt3 = true := by decide +kernel
theorem test_reset_rt_is_published :
    rowsAre State.reset.rt 0 publishedRt0 = true ∧
    rowsAre State.reset.rt 8 publishedRt1 = true ∧
    rowsAre State.reset.rt 16 publishedRt2 = true ∧
    rowsAre State.reset.rt 24 publishedRt3 = true := by decide +kernel
/-- Corner polynomials (V-T1). -/
theorem test_entries_corner_polynomials :
    ftEntry 0xFFFFFFFF 0x01 = 0x02000000 ∧ rtEntry 0xFFFFFFFF 0xFF = 0xFFFFFF80 ∧
    ftEntry 0x00000001 0xFF = 0x00000000 ∧ rtEntry 0x00000001 0x80 = 0x00000180 := by decide
/-- BUILD (V-T5). -/
theorem test_build_crc32 : nextWith (exec .build { State.resetAt 16 with poly := 0xEDB88320 }) (fun t =>
    entry t.ft 0x01 == 0x77073096 && entry t.rt 0x01 == 0xDB710641 && entry t.ft 0x80 == 0xEDB88320 && t.err == 0) =
    true := by decide +kernel
theorem test_build_zero_polynomial : nextWith (exec .build { State.resetAt 16 with poly := 0 }) (fun t =>
    entry t.ft 0xFF == 0 && entry t.rt 0xFF == 0x000000FF && t.err == 0) = true := by decide +kernel

/-! ### The byte steps (V-A1, V-F0) -/

theorem test_fstep : fstep State.reset.ft 0xFFFFFFFF 0x31 = 0x6F0A661C ∧
    fstep State.reset.ft 0x12345678 0x9A = 0x0219ECBB := by decide +kernel
theorem test_rstep : rstep State.reset.rt 0x3B2C85B5 0x00 = 0xEE9B28AB ∧
    rstep State.reset.rt 0x12345678 0x9A = 0x6149FA68 := by decide +kernel

/-! ### CRC (V-A2, V-A3; S2) -/

theorem test_crc_check_value : nextWith (exec .crc (loaded digits 0)) (fun t => t.result == 0xE3069283 && t.err == 0) =
    true := by decide +kernel
theorem test_crc_length_out_of_range : nextWith (exec .crc { loaded digits 0 with len := 17 }) (fun t =>
    t.result == 0 && t.err == 3) = true := by decide
theorem test_crc32_of_the_source : crc32 (ftTable 0xEDB88320) digits = 0xCBF43926 := by decide +kernel

/-! ### FORGE and FORGE.APPEND (V-F1, V-F4) -/

theorem test_forge_helloworld : nextWith (exec .forge (loaded helloworld 5)) (fun t =>
    t.patch == 0x3B2C85B5 && t.outlen == 14 && t.err == 0 && t.out.map (·.2) ==
      [0x68, 0x65, 0x6C, 0x6C, 0x6F, 0xB5, 0x85, 0x2C, 0x3B, 0x77, 0x6F, 0x72, 0x6C, 0x64]) = true := by decide +kernel
theorem test_forge_unwritten_byte : fault? (exec .forge { loaded [0x41] 0 with len := 2 }) =
    some (.unwrittenRead 0x10001) := by decide +kernel
theorem test_append_empty : nextWith (exec .forgeAppend (loaded [] 0)) (fun t =>
    t.patch == 0x9BE09BAB && t.outlen == 4 && t.out.map (·.2) == [0xAB, 0x9B, 0xE0, 0x9B]) = true := by decide +kernel
theorem test_append_ignores_pos : nextWith (exec .forgeAppend (loaded [0x41] 2)) (fun t =>
    t.patch == 0x7A8D5645 && t.err == 0 && t.out.map (·.2) == [0x41, 0x45, 0x56, 0x8D, 0x7A]) = true := by
  decide +kernel
/-- The full trace of FWD and BKD (V-F1). -/
theorem test_forge_trace :
    fwdTrace State.reset.ft helloworld 5 =
      [0xFFFFFFFF, 0x469D6703, 0x4721E9ED, 0x70DA9992, 0x5F660ACB, 0x658E44B3] ∧
    bkdTrace State.reset.ft State.reset.rt 0 helloworld 5 =
      [0xFFFFFFFF, 0xA942E6D8, 0x28045257, 0x96BF3EDA, 0x0073163B, 0x73163B77, 0x85B797F7, 0x5829CFD9, 0x269ACB6D,
       0x3B2C85B5] := by decide +kernel

/-! ### Host accesses (V-E2) -/

/-- The value a read answers, if it answers one. -/
def readValue? (r : Except Fault Word) : Option Word :=
  match r with
  | .ok v => some v
  | .error _ => none

/-- The fault a read answers, if it answers one. -/
def readFault? (r : Except Fault Word) : Option Fault :=
  match r with
  | .ok _ => none
  | .error f => some f

theorem test_reads_after_reset :
    readValue? (memRead State.reset 0x004 4) = some 0 ∧ readValue? (memRead State.reset 0x008 4) = some 0x82F63B78 ∧
    readValue? (memRead State.reset 0x7FC 4) = some 0xAD7D5351 ∧
    readFault? (memRead State.reset 0x20000 1) = some (.unwrittenRead 0x20000) := by decide +kernel
theorem test_bus_errors :
    readFault? (memRead State.reset 0x000 4) = some (.hostBusError 0) ∧
    readFault? (memRead State.reset 0x008 1) = some (.hostBusError 8) ∧
    readFault? (memRead State.reset 0x00A 4) = some (.hostBusError 0xA) ∧
    readFault? (memRead State.reset 0x30000 4) = some (.hostBusError 0x30000) ∧
    readFault? (memRead State.reset 0x10000 2) = some (.hostBusError 0x10000) ∧
    readFault? (memRead (State.resetAt 16) 0x10010 1) = some (.hostBusError 0x10010) ∧
    fault? (memWrite State.reset 0x004 4 0) = some (.hostBusError 4) ∧
    fault? (memWrite State.reset 0x20000 1 0) = some (.hostBusError 0x20000) := by decide +kernel
/-- `WR32 0x10000, 0x34333231` then `RD8 0x10002` (V-E2). -/
theorem test_little_endian : nextWith (memWrite State.reset 0x10000 4 0x34333231) (fun t =>
    readValue? (memRead t 0x10002 1) == some 0x33) = true := by decide +kernel
/-- P5: a host read of OUT right after reset stops the run. -/
theorem test_host_read_unwritten_out :
    fault? (step (about (.rd8 (.num 0x20000) 0) State.reset)) = some (.unwrittenRead 0x20000) := by decide +kernel
/-- `IF pt[23:16] == 0x2F GOTO bad` with pt = 0xD62FEF8D (P4, step 13). -/
theorem test_host_slice_and_jump :
    evalExpr [(3, 0xD62FEF8D)] (.slice 3 23 16) = 0x2F ∧
    nextWith (step { about (.ifEq (.slice 3 23 16) (.num 0x2F) 7) State.reset with
      host := { program := [{ label := none, op := .ifEq (.slice 3 23 16) (.num 0x2F) 7 },
          { label := none, op := .halt }, { label := some 7, op := .halt }], position := 0, vars := [(3, 0xD62FEF8D)] } })
      (fun t => t.host.position == 2) = true := by decide

/-- The library calls of R89 are well-formed host programs (two forge calls in a row, and the line a failed one goes
to), of the operations R89 counts and the branch of log entry 24. -/
theorem test_library_calls : programWf (callForge 0 helloworld (some 5) 0 1 0 ++ callForge 0 helloworld none 0 1 0 ++
      [{ label := some 0, op := .halt }]) = true ∧ (callCrc32 digits 0 1).length = 9 + 4 ∧
    (callForge 0 helloworld (some 5) 0 1 0).length = 10 + 2 + 2 + 2 + 14 ∧
    (callBuildTables 0x82F63B78 0 1 257).length = 3 + 512 := by decide +kernel

/-! ### Witnesses: a concrete state and operands that meet the hypotheses of each statement, at the limits of its
clauses -/

theorem witness_BuildIsIdempotent : (State.resetAt 16).poly = (loaded digits 5).poly ∧ State.resetAt 16 ≠ loaded digits 5 ∧
    (nextState? (exec .build (State.resetAt 16))).isSome = true ∧ (nextState? (exec .build (loaded digits 5))).isSome = true := by
  refine ⟨rfl, fun h => ?_, rfl, rfl⟩
  have := congrArg State.pos h
  revert this; decide

theorem witness_ReverseBitStepInvertsForward :
    (0x82F63B78 : Word).getLsbD 31 = true ∧ (0x02F63B78 : Word).getLsbD 31 = false := by decide

theorem witness_ReverseTableInvertsForwardTable : (0x80000000 : Word).getLsbD 31 = true ∧
    highByte (entry (ftTable 0x82F63B78) 0x01) = 0xF2 := by decide

/-- `LEN = MAXLEN`, every byte written. -/
def full : State := { loaded [1, 2, 3, 4] 4 with maxlen := 4 }

theorem witness_CrcWritesTheChecksum : full.len.toNat ≤ full.maxlen.toNat ∧ full.DataIs [1, 2, 3, 4] := by
  unfold State.DataIs; decide

theorem witness_CrcFrame : (nextState? (exec .crc full)).isSome = true ∧
    nextWith (exec .crc { full with len := 5 }) (fun t => t.err == 3) = true := by decide +kernel

theorem witness_EmptySequenceHasChecksumZero : State.reset.len = 0 := rfl

theorem witness_tables_match : State.reset.TablesMatch ∧ State.reset.Reversible := ⟨⟨rfl, rfl⟩, rfl⟩

theorem witness_ByteStepsUndoEachOther : State.reset.TablesMatch ∧ State.reset.Reversible := witness_tables_match

theorem witness_ForgeWritesTheSplicedSequence : full.len.toNat ≤ full.maxlen.toNat ∧
    full.pos.toNat ≤ full.len.toNat ∧ full.DataIs [1, 2, 3, 4] := by unfold State.DataIs; decide

theorem witness_ForgeAppendWritesAtTheEnd : full.len.toNat ≤ full.maxlen.toNat ∧ full.DataIs [1, 2, 3, 4] :=
  witness_CrcWritesTheChecksum

theorem witness_ForgeFrame : IsForge .forge ∧ IsForge .forgeAppend ∧ (nextState? (exec .forge full)).isSome = true ∧
    (nextState? (exec .forgeAppend full)).isSome = true ∧
    nextWith (exec .forge { full with pos := 5 }) (fun t => t.err == 1) = true :=
  ⟨.inl rfl, .inr rfl, by decide +kernel, by decide +kernel, by decide +kernel⟩

/-- LEN = 2, POS = 1: a byte before the patch, one behind it, and an index above `LEN+4`. -/
theorem witness_ForgedBytesOfOut :
    nextWith (exec .forge (loaded [0x41, 0x42] 1)) (fun t => t.err == 0) = true ∧
    0 < forgePos .forge (loaded [0x41, 0x42] 1) ∧ forgePos .forge (loaded [0x41, 0x42] 1) ≤ 1 ∧
    1 < (loaded [0x41, 0x42] 1).len.toNat ∧ (loaded [0x41, 0x42] 1).len.toNat + 4 ≤ 6 := by decide +kernel

theorem witness_PatchIsLittleEndianInOut : IsForge .forgeAppend ∧
    nextWith (exec .forgeAppend full) (fun t => t.err == 0) = true := ⟨.inr rfl, by decide +kernel⟩

theorem witness_ForgePreservesPrefixAndSuffix : 10 ≤ helloworld.length ∧ 0 ≤ helloworld.length := by decide

theorem witness_BothEndPositionsAreLegal : full.pos = full.len ∧ (loaded [0x41] 0).pos = 0 ∧
    (loaded [0x41] 0).len.toNat ≤ (loaded [0x41] 0).maxlen.toNat ∧ (loaded [0x41] 0).DataIs [0x41] := by
  unfold State.DataIs; decide

theorem witness_ForgeAtLenIsForgeAppend : full.pos = full.len := by decide

/-- The invariant, field by field, for a small state of the reset tables. -/
theorem loaded_inv : (loaded [0x41] 0).Inv :=
  ⟨by decide, by decide, by decide, by decide, by decide, ⟨rfl, rfl⟩, by decide, .inl rfl,
    fun j h => absurd h (Nat.not_lt_zero j), rfl⟩

/-- OUT copied into DATA, LEN = OUTLEN. -/
def copied (t : State) : State := { t with data := t.out, len := t.outlen }

theorem witness_ForgedSequenceHasTheWantedChecksum : (loaded [0x41] 0).Inv ∧ (loaded [0x41] 0).Reversible ∧
    nextWith (exec .forge (loaded [0x41] 0)) (fun t => t.err == 0 &&
      decide ((copied t).len.toNat ≤ (copied t).maxlen.toNat) &&
      nextWith (exec .crc (copied t)) (fun v => v.result == 0 && v.err == 0)) = true :=
  ⟨loaded_inv, rfl, by decide +kernel⟩

theorem witness_PatchIsUnique : State.reset.TablesMatch ∧ State.reset.Reversible ∧ 10 ≤ helloworld.length :=
  ⟨⟨rfl, rfl⟩, rfl, by decide⟩

theorem witness_IrreversiblePolynomialHasTargetsWithoutPatch : (withTables 1 full).TablesMatch ∧
    ¬ (withTables 1 full).Reversible ∧ Ready .forge (withTables 1 full) ∧ Ready .forgeAppend (withTables 1 full) := by
  refine ⟨⟨rfl, rfl⟩, ?_, ?_, ?_⟩ <;> simp only [State.Reversible, Ready] <;> decide

theorem witness_ForgeDependsOnItsOperandsAlone : full.TablesMatch ∧ ({ full with result := 1, poly := 0 } : State).TablesMatch ∧
    full ≠ { full with result := 1, poly := 0 } ∧ nextWith (exec .forge full) (fun t => t.err == 0) = true ∧
    nextWith (exec .forgeAppend { full with result := 1, poly := 0 }) (fun t => t.err == 0) = true ∧
    forgePos .forge full = forgePos .forgeAppend { full with result := 1, poly := 0 } := by
  refine ⟨⟨rfl, rfl⟩, ⟨rfl, rfl⟩, fun h => ?_, by decide +kernel, by decide +kernel, rfl⟩
  have := congrArg State.result h
  revert this; decide

theorem witness_TableStepsAreLinear : 5 ≤ helloworld.length ∧
    forgeTableSteps State.reset.ft State.reset.rt 0 helloworld 5 = 14 := by decide

/-- LEN = MAXLEN + 1 on one side, LEN = MAXLEN on the other. -/
theorem witness_LengthOutOfRange : ({ full with len := 5 } : State).maxlen.toNat < ({ full with len := 5 } : State).len.toNat ∧
    ¬ full.maxlen.toNat < full.len.toNat ∧ (nextState? (exec .build full)).isSome = true := by decide

/-- POS = LEN + 1 on one side, POS = LEN on the other. -/
theorem witness_InvalidArgumentExactlyPastTheEnd : full.len.toNat ≤ full.maxlen.toNat ∧
    full.len.toNat < ({ full with pos := 5 } : State).pos.toNat ∧ ¬ full.len.toNat < full.pos.toNat := by decide

/-- The four values of `errAfter`; with LEN and POS both out of range FORGE reports the length (R177). -/
theorem witness_FirstErrorIsReported : errAfter 0x12 full = .illegalCommand ∧
    errAfter 0x13 { full with len := 5, pos := 9 } = .lengthOutOfRange ∧
    errAfter 0x13 { full with pos := 5 } = .invalidArgument ∧ errAfter 0x13 full = .ok ∧
    (nextState? (commandWrite 0x13 full)).isSome = true := by decide +kernel

theorem witness_FailedCommandChangesOnlyErr :
    nextWith (commandWrite 0x80000013 full) (fun t => t.err == 2 && t.err != 0) = true := by decide

theorem witness_UnwrittenDataFaultsTheCommand : ({ loaded [0x41] 1 with len := 2 } : State).data.read 1 = none ∧
    forgePos .forge { loaded [0x41] 1 with len := 2 } ≤ 2 ∧
    fault? (exec .crc { loaded [0x41] 1 with len := 2 }) = some (.unwrittenRead 0x10001) ∧
    nextWith (exec .forge { loaded [] 5 with len := 4 }) (fun t => t.err == 1) = true ∧
    nextWith (exec .crc { loaded [] 0 with len := 17 }) (fun t => t.err == 3) = true := by decide +kernel

theorem witness_ReadyCommandsComplete : Ready .build State.reset ∧ Ready .crc full ∧ Ready .forge full ∧
    Ready .forgeAppend full := by simp only [Ready]; decide

theorem witness_EveryCommandEnds : (nextState? (commandWrite 2 full)).isSome = true ∧
    fault? (commandWrite 2 { full with data := [] }) = some (.unwrittenRead 0x10000) := by decide +kernel

/-- The last legal and the first illegal offset of each region, for MAXLEN = 4. -/
theorem witness_AccessesAdmittedExactly : maxlenLegal full.maxlen = true ∧
    LegalRead 4 0x024 4 ∧ ¬ LegalRead 4 0x028 4 ∧ ¬ LegalRead 4 0x000 4 ∧ LegalRead 4 0xBFC 4 ∧ ¬ LegalRead 4 0xC00 4 ∧
    LegalRead 4 0x10003 1 ∧ ¬ LegalRead 4 0x10004 1 ∧ LegalRead 4 0x20007 1 ∧ ¬ LegalRead 4 0x20008 1 ∧
    LegalWrite 4 0x000 4 ∧ ¬ LegalWrite 4 0x004 4 ∧ LegalWrite 4 0x014 4 ∧ ¬ LegalWrite 4 0x018 4 ∧
    LegalWrite 4 0x10003 1 ∧ ¬ LegalWrite 4 0x20000 1 ∧ ¬ LegalRead 4 0x10000 2 := by
  simp only [LegalRead, LegalWrite, InData, InOut]
  refine ⟨by decide, ?_⟩
  repeat' apply And.intro
  all_goals decide

theorem witness_MisalignedWordIsBusError : 0x00A % 4 ≠ 0 ∧ 0x10001 % 4 ≠ 0 := by decide

theorem witness_ReservedOffsetsAreBusErrors : readFault? (memRead full 0x028 4) = some (.hostBusError 0x028) ∧
    readFault? (memRead full 0x3FF 1) = some (.hostBusError 0x3FF) ∧
    readFault? (memRead full 0xC00 4) = some (.hostBusError 0xC00) ∧
    readFault? (memRead full 0xFFFF 1) = some (.hostBusError 0xFFFF) := by decide +kernel

theorem witness_TableWindowsReadTheEntries : readValue? (memRead State.reset 0x404 4) = some 0xF26B8303 ∧
    readValue? (memRead State.reset 0xBFC 4) = some 0x56BD19BC ∧
    fault? (memWrite State.reset 0x400 4 0) = some (.hostBusError 0x400) ∧
    fault? (memWrite State.reset 0xBFF 1 0) = some (.hostBusError 0xBFF) := by decide +kernel

theorem witness_DataWordWriteReadsBack : maxlenLegal (State.resetAt 16).maxlen = true ∧ 12 % 4 = 0 ∧
    12 < (State.resetAt 16).maxlen.toNat := by decide

theorem witness_DataByteWriteReadsBack : maxlenLegal (State.resetAt 16).maxlen = true ∧
    15 < (State.resetAt 16).maxlen.toNat := by decide

/-- The last word of DATA and the last word of OUT, MAXLEN = 4. -/
def bothBuffers : State := { full with out := holding [1, 2, 3, 4, 5, 6, 7, 8] }

theorem witness_BufferWordReadIsLittleEndian : maxlenLegal bothBuffers.maxlen = true ∧
    4 * 0 < bothBuffers.maxlen.toNat ∧ bothBuffers.data.read 0 = some 1 ∧ bothBuffers.data.read 1 = some 2 ∧
    bothBuffers.data.read 2 = some 3 ∧ bothBuffers.data.read 3 = some 4 ∧ 4 * 1 < bothBuffers.maxlen.toNat + 4 ∧
    bothBuffers.out.read 4 = some 5 ∧ bothBuffers.out.read 5 = some 6 ∧ bothBuffers.out.read 6 = some 7 ∧
    bothBuffers.out.read 7 = some 8 ∧ readValue? (memRead bothBuffers 0x20004 4) = some 0x08070605 := by decide +kernel

/-- A word with one unwritten byte, a byte that is unwritten, and a written one. -/
theorem witness_UnwrittenBufferReadFaults :
    readFault? (memRead (loaded [1, 2, 3] 0) 0x10000 4) = some (.unwrittenRead 0x10000) ∧
    readFault? (memRead (loaded [1, 2, 3] 0) 0x10003 1) = some (.unwrittenRead 0x10003) ∧
    readValue? (memRead (loaded [1, 2, 3] 0) 0x10002 1) = some 3 ∧
    readFault? (memRead bothBuffers 0x20008 1) = some (.hostBusError 0x20008) ∧
    readValue? (memRead bothBuffers 0x20007 1) = some 8 := by decide +kernel

theorem witness_StepRunsTheDecodedCommand : (State.reset.withFetchWord 32 0x13).Issues 0x13 ∧
    decode 0x13 = .command .forge ∧ (State.reset.withFetchWord 32 0x12).Issues 0x12 ∧
    decode 0x12 = .illegal .positionFlag :=
  ⟨⟨_, _, rfl, rfl, by decide⟩, by decide, ⟨_, _, rfl, rfl, by decide⟩, by decide⟩

theorem witness_HostReadLeavesTheBlockUnchanged :
    (about (.rd32 (.num 0x008) 3) State.reset).currentOp = some (.rd 4 (.num 0x008) 3) ∧
    (about (.rd32 (.num 0x008) 3) State.reset).eval (.num 0x008) = (0x008 : Nat) ∧
    memRead (about (.rd32 (.num 0x008) 3) State.reset) 0x008 4 = .ok 0x82F63B78 ∧
    nextWith (step (about (.rd32 (.num 0x008) 3) State.reset)) (fun t => t.host.vars == [(3, 0x82F63B78)]) = true :=
  ⟨rfl, rfl, rfl, by decide +kernel⟩

theorem witness_HostControlTouchesTheHostAlone :
    (about (.set 3 (.num 1)) State.reset).currentOp = some (.set 3 (.num 1)) ∧
    labelPosition (about (.goto 7) State.reset).host.program 7 = some 0 ∧
    (about (.ifEq (.num 1) (.num 1) 7) State.reset).currentOp = some (.ifEq (.num 1) (.num 1) 7) ∧
    (about (.ifNe (.num 1) (.num 2) 7) State.reset).currentOp = some (.ifNe (.num 1) (.num 2) 7) ∧
    (about (.goto 7) State.reset).currentOp = some (.goto 7) ∧ (about .halt State.reset).currentOp = some .halt ∧
    State.reset.currentOp = none := ⟨rfl, rfl, rfl, rfl, rfl, rfl, rfl⟩

theorem witness_ResetLeavesTheResetValues : (about .reset full).Resets ∧ (about (.resetDuring (.num 2)) full).Resets :=
  ⟨.inl rfl, .inr ⟨_, rfl⟩⟩

theorem witness_PolyWriteLeavesCommandsAlone : (nextState? (exec .crc full)).isSome = true ∧
    (nextState? (exec .forge full)).isSome = true ∧ (nextState? (exec .forgeAppend full)).isSome = true := by
  decide +kernel

/-- BUILD after a POLY write changes the tables. -/
theorem witness_TablesChangeOnlyByBuildOrReset :
    nextWith (step (({ State.reset with poly := 1 } : State).withFetchWord 32 1)) (fun t =>
      t.tpoly != State.reset.tpoly && entry t.ft 0x80 == 1) = true := by decide +kernel

/-- RESULT, the forge outputs and ERR each change in one step. -/
theorem witness_ResultsChangeOnlyByTheirCommands :
    nextWith (step (full.withFetchWord 32 2)) (fun t => t.result != full.result) = true ∧
    nextWith (step (full.withFetchWord 32 0x13)) (fun t => t.outlen != full.outlen && t.patch != full.patch) = true ∧
    nextWith (step (full.withFetchWord 32 0x12)) (fun t => t.err != full.err) = true := by decide +kernel

theorem witness_NoCommandWritesItsOperands : (nextState? (commandWrite 0x13 full)).isSome = true ∧
    (nextState? (step (full.withFetchWord 32 0x13))).isSome = true := by decide +kernel

theorem witness_EveryStepKeepsTheInvariant : (loaded [0x41] 0).Inv ∧ (nextState? (step (loaded [0x41] 0))).isSome = true :=
  ⟨loaded_inv, rfl⟩

theorem witness_ResetMeetsTheInvariant : maxlenLegal 4 = true ∧ maxlenLegal 0xFFFC = true := by decide

end Sys2Proof.Tests
end

section
/-! What a CMD write that completes can do to the block, said once: the inversion law under the statements about
steps. -/

namespace Sys2Proof.Machine

/-- Only the word of the opcode map decodes to a command (R83). -/
theorem eq_encode_of_decode {w : Word} {i : Instr} (h : decode w = .command i) : w = encode i := by
  simp only [decode] at h
  split_ifs at h <;> cases h <;> assumption

/-- What a CMD write of `w` that completes does: the first error that applies goes to ERR (R172, R177), or the command
of the word runs its own effect (R102, R123, R146, R147). -/
inductive CommandMove (w : Word) (s : State) : State → Prop where
  | error (failed : errAfter w s ≠ .ok) : CommandMove w s { s with err := errBits (errAfter w s) }
  | build (word : w = encode .build) : CommandMove w s (s.buildTables s.poly).complete
  | crc (word : w = encode .crc) (fits : s.len.toNat ≤ s.maxlen.toNat) (seq : List Byte) (reads : s.DataIs seq) :
      CommandMove w s (s.setResult (crc32 s.ft seq)).complete
  | forge (i : Instr) (isForge : IsForge i) (word : w = encode i) (fits : s.len.toNat ≤ s.maxlen.toNat)
      (inside : forgePos i s ≤ s.len.toNat) (seq : List Byte) (reads : s.DataIs seq) :
      CommandMove w s (s.setForged (forgeOut s.ft s.rt s.wanted seq (forgePos i s))
        (forgePatch s.ft s.rt s.wanted seq (forgePos i s)) (BitVec.ofNat 32 (s.len.toNat + 4))).complete

/-- A command that ends in an error makes the error move. -/
theorem CommandMove.of_raise {w : Word} {s t : State} {code : ErrCode} (ran : raiseCmdError code s = .next t)
    (reported : errAfter w s = code) (failed : code ≠ .ok) : CommandMove w s t := by
  subst reported
  rw [raiseCmdError_next ran]
  exact .error failed

/-- The steps shared by the two forge commands make the forge move. -/
theorem CommandMove.of_forgeAt {w : Word} {s t : State} {i : Instr} (isForge : IsForge i) (word : w = encode i)
    (fits : s.len.toNat ≤ s.maxlen.toNat) (inside : forgePos i s ≤ s.len.toNat)
    (ran : forgeAt s s.len.toNat (forgePos i s) = .next t) : CommandMove w s t := by
  rcases forgeAt_cases s inside with ⟨seq, reads, e⟩ | ⟨j, -, -, e⟩ <;> rw [e] at ran
  · cases ran
    exact .forge i isForge word fits inside seq (dataIs_iff_reads.2 reads)
  · cases ran

/-- Everything a CMD write that completes can do. -/
theorem commandWrite_move {w : Word} {s t : State} (ran : commandWrite w s = .next t) : CommandMove w s t := by
  simp only [commandWrite] at ran
  cases hd : decode w with
  | illegal why =>
    rw [hd] at ran
    exact .of_raise ran (by simp [errAfter, hd]) (by decide)
  | command i =>
    have word := eq_encode_of_decode hd
    rw [hd] at ran
    cases i with
    | build => cases ran; exact .build word
    | crc =>
      simp only [exec] at ran
      rcases execCrc_cases s with ⟨hl, e⟩ | ⟨hl, seq, reads, e⟩ | ⟨-, j, -, -, e⟩ <;> rw [e] at ran
      · exact .of_raise ran (by simp [errAfter, hd, hl]) (by decide)
      · cases ran; exact .crc word hl seq reads
      · cases ran
    | forgeAppend =>
      simp only [exec] at ran
      rcases execForgeAppend_cases s with ⟨hl, e⟩ | ⟨hl, e⟩ <;> rw [e] at ran
      · exact .of_raise ran (by simp [errAfter, hd, hl]) (by decide)
      · exact .of_forgeAt (.inr rfl) word hl (Nat.le_refl _) ran
    | forge =>
      simp only [exec] at ran
      rcases execForge_cases s with ⟨hl, e⟩ | ⟨hl, hp, e⟩ | ⟨hl, hp, e⟩ <;> rw [e] at ran
      · exact .of_raise ran (by simp [errAfter, hd, hl]) (by decide)
      · exact .of_raise ran (by simp [errAfter, hd, hp, Nat.not_lt.2 hl]) (by decide)
      · exact .of_forgeAt (.inl rfl) word hl hp ran

/-- Only BUILD's word changes the tables or TPOLY (R32, R37). -/
theorem CommandMove.tables {w : Word} {s t : State} (h : CommandMove w s t) :
    w = encode .build ∨ (t.ft = s.ft ∧ t.rt = s.rt ∧ t.tpoly = s.tpoly) := by
  cases h with
  | build word => exact .inl word
  | error | crc | forge => exact .inr ⟨rfl, rfl, rfl⟩

/-- Only a CRC that ends with ERR 0 changes RESULT (R28). -/
theorem CommandMove.result {w : Word} {s t : State} (h : CommandMove w s t) :
    (w = encode .crc ∧ t.err = 0) ∨ t.result = s.result := by
  cases h with
  | crc word => exact .inl ⟨word, rfl⟩
  | error | build | forge => exact .inr rfl

/-- Only a forge command that ends with ERR 0 changes PATCH, OUTLEN or OUT (R29, R30, R34). -/
theorem CommandMove.forgeOutputs {w : Word} {s t : State} (h : CommandMove w s t) :
    ((w = encode .forge ∨ w = encode .forgeAppend) ∧ t.err = 0) ∨
      (t.patch = s.patch ∧ t.outlen = s.outlen ∧ t.out = s.out) := by
  cases h with
  | forge i isForge word =>
    obtain rfl | rfl := isForge
    · exact .inl ⟨.inl word, rfl⟩
    · exact .inl ⟨.inr word, rfl⟩
  | error | build | crc => exact .inr ⟨rfl, rfl, rfl⟩

/-- The block's state that only commands and reset write: the tables with their polynomial, the results, and ERR. -/
structure SameResults (s t : State) : Prop where
  ft : t.ft = s.ft
  rt : t.rt = s.rt
  tpoly : t.tpoly = s.tpoly
  result : t.result = s.result
  patch : t.patch = s.patch
  outlen : t.outlen = s.outlen
  out : t.out = s.out
  err : t.err = s.err

/-- A step keeps the results, or the host issued a command word, or it reset the block. -/
theorem step_results {s t : State} (h : step s = .next t) :
    SameResults s t ∨ (∃ w u side, s.Issues w ∧ CommandMove w s u ∧ t = { u with host := side }) ∨ s.Resets := by
  obtain ⟨u, move, same⟩ := step_blockMove h
  obtain ⟨side, rfl⟩ : ∃ side, t = { u with host := side } := ⟨t.host, same⟩
  cases move with
  | none => exact .inl ⟨rfl, rfl, rfl, rfl, rfl, rfl, rfl, rfl⟩
  | command w u issued ran => exact .inr (.inl ⟨w, u, side, issued, commandWrite_move ran, rfl⟩)
  | register v r => exact .inl (by constructor <;> simp)
  | data i n v => exact .inl ⟨rfl, rfl, rfl, rfl, rfl, rfl, rfl, rfl⟩
  | reset op => exact .inr (.inr op)

end Sys2Proof.Machine
end

section
/-! The invariant of the block: it holds at reset, every move of the block keeps it, and so does every step. -/

namespace Sys2Proof.Machine

theorem maxlenLegal_iff {m : Word} : maxlenLegal m = true ↔ 4 ≤ m.toNat ∧ m.toNat ≤ 0xFFFC ∧ m.toNat % 4 = 0 := by
  simp [maxlenLegal, and_assoc]

/-- Every code of R171 is one of 0 to 3. -/
theorem errBits_toNat_le (code : ErrCode) : (errBits code).toNat ≤ 3 := by
  cases code <;> decide

@[simp] theorem leBytes_length (v : Word) : (leBytes v).length = 4 := rfl

/-- The forged sequence is four bytes longer (R156). -/
theorem forgeOut_length (ft rt : Table) (w : Word) {seq : List Byte} {pos : Nat} (h : pos ≤ seq.length) :
    (forgeOut ft rt w seq pos).length = seq.length + 4 := by
  simp [forgeOut, splice]; omega

/-- Every index a run of bytes was written to is written. -/
theorem Memory.read_writeBytes_ne_none (m : Memory) (bs : List Byte) {j : Nat} (h : j < bs.length) :
    (m.writeBytes 0 bs).read j ≠ none := by
  rw [Memory.read_writeBytes, if_pos ⟨Nat.zero_le j, by omega⟩]
  simpa using h

/-- The state right after reset of a block with a legal MAXLEN (R38, R200). -/
theorem resetAt_inv {m : Word} (h : maxlenLegal m = true) : (State.resetAt m).Inv where
  maxlen := h
  dataWf := rfl
  outWf := rfl
  dataWithin := rfl
  outWithin := rfl
  tables := ⟨rfl, rfl⟩
  err := Nat.zero_le 3
  outlen := .inl rfl
  outWritten := fun j hj => absurd hj (Nat.not_lt_zero j)
  hostVars := rfl

/-- The host's side may be any whose variables are in canonical form. -/
theorem State.Inv.withHost {s : State} (h : s.Inv) {side : HostSide} (hv : rising side.vars = true) :
    State.Inv { s with host := side } := { h with hostVars := hv }

theorem State.Inv.withErr {s : State} (h : s.Inv) (code : ErrCode) : State.Inv { s with err := errBits code } :=
  { h with err := errBits_toNat_le code }

theorem State.Inv.complete {s : State} (h : s.Inv) : s.complete.Inv := h.withErr .ok

theorem State.Inv.buildTables {s : State} (h : s.Inv) (p : Word) : (s.buildTables p).Inv :=
  { h with tables := ⟨rfl, rfl⟩ }

theorem State.Inv.setResult {s : State} (h : s.Inv) (v : Word) : (s.setResult v).Inv := { h with }

/-- A forged sequence of `n + 4` bytes, `n` up to MAXLEN, fits OUT, and OUTLEN is its length. -/
theorem State.Inv.setForged {s : State} (h : s.Inv) {o : List Byte} {n : Nat} (patch : Word)
    (hn : n ≤ s.maxlen.toNat) (ho : o.length = n + 4) : (s.setForged o patch (BitVec.ofNat 32 (n + 4))).Inv := by
  obtain ⟨-, hmax, -⟩ := maxlenLegal_iff.1 h.maxlen
  have hlen : (BitVec.ofNat 32 (n + 4)).toNat = n + 4 := by rw [BitVec.toNat_ofNat]; omega
  exact { h with
    outWf := Memory.wf_writeBytes s.out 0 o h.outWf
    outWithin := Memory.within_writeBytes s.out (s.maxlen.toNat + 4) 0 o h.outWithin (by omega)
    outlen := .inr (by simp only [setForged_outlen, setForged_maxlen, hlen]; omega)
    outWritten := fun j hj => by
      rw [setForged_outlen, hlen] at hj
      exact Memory.read_writeBytes_ne_none s.out o (by omega) }

theorem State.Inv.writeRw {s : State} (h : s.Inv) (v : Word) (r : RwReg) : (writeRw s v r).Inv := by
  cases r <;> exact { h with }

/-- A byte, or an aligned word, that starts in the mapped part of DATA ends in it: MAXLEN is a multiple of 4 (R7). -/
theorem State.Inv.writeData {s : State} (h : s.Inv) {i n : Nat} (v : Word) (mapped : i < s.maxlen.toNat)
    (width : n = 1 ∨ (n = 4 ∧ i % 4 = 0)) : (writeData s i n v).Inv := by
  obtain rfl | ⟨rfl, aligned⟩ := width
  · exact { h with
      dataWf := Memory.wf_write s.data i _ h.dataWf
      dataWithin := Memory.within_write s.data s.maxlen.toNat i _ h.dataWithin mapped }
  · obtain ⟨-, -, hmod⟩ := maxlenLegal_iff.1 h.maxlen
    exact { h with
      dataWf := Memory.wf_writeBytes s.data i _ h.dataWf
      dataWithin := Memory.within_writeBytes s.data s.maxlen.toNat i _ h.dataWithin (by rw [leBytes_length]; omega) }

theorem State.Inv.blockReset {s : State} (h : s.Inv) : s.blockReset.Inv :=
  (resetAt_inv h.maxlen).withHost h.hostVars

/-- Every command that completes keeps the invariant. -/
theorem CommandMove.inv {w : Word} {s t : State} (move : CommandMove w s t) (h : s.Inv) : t.Inv := by
  cases move with
  | error => exact h.withErr _
  | build => exact (h.buildTables s.poly).complete
  | crc => exact (h.setResult _).complete
  | forge i _ _ fits inside seq reads =>
    obtain ⟨hlen, -⟩ := reads
    have ho := forgeOut_length s.ft s.rt s.wanted (show forgePos i s ≤ seq.length by omega)
    exact (h.setForged _ fits (by rw [ho, hlen])).complete

/-- Every move of the block keeps the invariant. -/
theorem BlockMove.inv {s t : State} (move : BlockMove s t) (h : s.Inv) : t.Inv := by
  cases move with
  | none => exact h
  | command w t _ ran => exact (commandWrite_move ran).inv h
  | register v r => exact h.writeRw v r
  | data i n v mapped width => exact h.writeData v mapped width
  | reset => exact h.blockReset

/-- Settles O58: the block makes one of its moves, each of which keeps the invariant, and the host's variables keep
their canonical form. -/
theorem everyStepKeepsTheInvariant : Obligations.EveryStepKeepsTheInvariant := by
  intro s t h hstep
  obtain ⟨u, move, same⟩ := step_blockMove hstep
  rw [show t = { u with host := t.host } from same]
  exact (move.inv h).withHost (step_vars_rising hstep h.hostVars)

/-- Settles O59, by the invariant of the reset state for any legal MAXLEN. -/
theorem resetMeetsTheInvariant : Obligations.ResetMeetsTheInvariant :=
  ⟨fun _ => resetAt_inv, resetAt_inv (by decide)⟩

/-- Settles O53: either form of reset moves the block to `blockReset`. -/
theorem resetLeavesTheResetValues : Obligations.ResetLeavesTheResetValues := by
  intro s hs
  have hstep : step s = .next s.blockReset.advance := by
    obtain hop | ⟨v, hop⟩ := hs <;> simp only [step, hop, runOp]
  exact ⟨_, hstep, rfl, rfl, rfl, rfl, rfl, rfl, rfl, rfl, rfl, rfl, fun i => by simp, fun j => by simp⟩

end Sys2Proof.Machine
end

section
/-! Who writes the tables, the results and ERR. -/

namespace Sys2Proof.Machine

/-- Settles O55: a step that is neither a command nor a reset keeps the tables, and of the commands only BUILD's move
writes them. -/
theorem tablesChangeOnlyByBuildOrReset : Obligations.TablesChangeOnlyByBuildOrReset := by
  intro s t hstep changed
  obtain same | ⟨w, u, side, issued, move, rfl⟩ | resets := step_results hstep
  · simp [same.ft, same.rt, same.tpoly] at changed
  · obtain rfl | ⟨hft, hrt, htpoly⟩ := move.tables
    · exact .inl issued
    · simp [hft, hrt, htpoly] at changed
  · exact .inr resets

/-- Settles O56: a step that is neither a command nor a reset keeps every result, and each command's move writes its
own results, with ERR 0, and ERR. -/
theorem resultsChangeOnlyByTheirCommands : Obligations.ResultsChangeOnlyByTheirCommands := by
  intro s t hstep
  obtain same | ⟨w, u, side, issued, move, rfl⟩ | resets := step_results hstep
  · simp [same.result, same.patch, same.outlen, same.out, same.err]
  · refine ⟨fun changed => .inl ?_, fun changed => .inl ?_, fun _ => .inl ⟨w, issued⟩⟩
    · obtain ⟨rfl, ok⟩ | hresult := move.result
      · exact ⟨issued, ok⟩
      · exact absurd hresult changed
    · obtain ⟨word, ok⟩ | ⟨hpatch, houtlen, hout⟩ := move.forgeOutputs
      · obtain rfl | rfl := word
        · exact ⟨.inl issued, ok⟩
        · exact ⟨.inr issued, ok⟩
      · simp [hpatch, houtlen, hout] at changed
  · exact ⟨fun _ => .inr resets, fun _ => .inr resets, fun _ => .inr resets⟩

end Sys2Proof.Machine
end

section
/-! The datapath traces of ACC, FWD and BKD: how long they are and where they end (R36, R160). -/

namespace Sys2Proof.Machine

@[simp] theorem forwardTrace_length (ft : Table) (x : Word) (seq : List Byte) :
    (forwardTrace ft x seq).length = seq.length + 1 := by
  induction seq generalizing x with
  | nil => rfl
  | cons c t ih => simp [forwardTrace, ih]

@[simp] theorem feedTrace_length (rt : Table) (b : Word) (seq : List Byte) :
    (feedTrace rt b seq).length = seq.length + 1 := by
  induction seq generalizing b with
  | nil => rfl
  | cons c t ih => simp [feedTrace, ih]

/-- The forward register ends at the value of the recurrence (R121). -/
theorem forwardTrace_getLast? (ft : Table) (x : Word) (seq : List Byte) :
    (forwardTrace ft x seq).getLast? = some (crcRaw ft x seq) := by
  induction seq generalizing x with
  | nil => rfl
  | cons c t ih => simp [forwardTrace, crcRaw, List.getLast?_cons, ih]

/-- The reverse recurrence takes the last part of its sequence first (R142). -/
theorem backRun_append (rt : Table) (b : Word) (x y : List Byte) :
    backRun rt b (x ++ y) = backRun rt (backRun rt b y) x := by
  induction x with
  | nil => rfl
  | cons c t ih => simp [backRun, ih]

/-- BKD ends at the value of the reverse recurrence over the bytes it was fed, first byte last (R142, R143). -/
theorem feedTrace_getLast? (rt : Table) (b : Word) (seq : List Byte) :
    (feedTrace rt b seq).getLast? = some (backRun rt b seq.reverse) := by
  induction seq generalizing b with
  | nil => rfl
  | cons c t ih => simp [feedTrace, backRun_append, backRun, List.getLast?_cons, ih]

/-- BKD ends at the patch: phase 3 runs over the bytes of FWD from where phase 2 ends (R144). -/
theorem bkdTrace_getLast? (ft rt : Table) (w : Word) (seq : List Byte) (pos : Nat) :
    (bkdTrace ft rt w seq pos).getLast? = some (forgePatch ft rt w seq pos) := by
  simp [bkdTrace, feedTrace_getLast?, backRun_append, forgePatch]

/-- Settles O32, by the ends and the lengths of the traces. -/
theorem tableStepsAreLinear : Obligations.TableStepsAreLinear := by
  intro ft rt w seq pos hpos
  refine ⟨forwardTrace_getLast? ft M32 seq, by simp [crcTableSteps, accTrace],
    forwardTrace_getLast? ft M32 (seq.take pos), bkdTrace_getLast? ft rt w seq pos, ?_⟩
  simp [forgeTableSteps, fwdTrace, bkdTrace]
  omega

end Sys2Proof.Machine
end

section
/-! Reads and writes of the register window (R51, R59 to R61). -/

namespace Sys2Proof.Machine

/-- An aligned word read of a read-only register answers its value. -/
theorem memRead_ro (s : State) {a : Nat} {r : RoReg} (at_a : regionOf s.maxlen.toNat a = .ro r) (aligned : a % 4 = 0) :
    memRead s a 4 = .ok (readRo s r) := by
  simp [memRead, readOk, widthOk, accessRow, at_a, aligned]

/-- An aligned word read of an operand register answers its value. -/
theorem memRead_rw (s : State) {a : Nat} {r : RwReg} (at_a : regionOf s.maxlen.toNat a = .rw r) (aligned : a % 4 = 0) :
    memRead s a 4 = .ok (readRw s r) := by
  simp [memRead, readOk, widthOk, accessRow, at_a, aligned]

/-- CMD is not readable (R26). -/
theorem memRead_cmd (s : State) {a : Nat} (n : Nat) (at_a : regionOf s.maxlen.toNat a = .cmd) :
    memRead s a n = .error (.hostBusError a) := by
  simp [memRead, readOk, accessRow, at_a]

/-- An aligned word write of an operand register stores the value in it. -/
theorem memWrite_rw (s : State) {a : Nat} {r : RwReg} (v : Word) (at_a : regionOf s.maxlen.toNat a = .rw r)
    (aligned : a % 4 = 0) : memWrite s a 4 v = .next (writeRw s v r) := by
  simp [memWrite, writeOk, widthOk, accessRow, at_a, aligned]

/-- Settles O44: each offset is its register's in the map of R51. -/
theorem registersReadTheirValues : Obligations.RegistersReadTheirValues := fun s =>
  ⟨memRead_ro s (r := .status) rfl rfl, memRead_rw s (r := .poly) rfl rfl, memRead_rw s (r := .len) rfl rfl,
    memRead_rw s (r := .pos) rfl rfl, memRead_rw s (r := .wanted) rfl rfl, memRead_ro s (r := .result) rfl rfl,
    memRead_ro s (r := .patch) rfl rfl, memRead_ro s (r := .outlen) rfl rfl, memRead_ro s (r := .maxlen) rfl rfl,
    memRead_cmd s 4 rfl⟩

/-- Settles O45: each offset is its register's in the map of R51. -/
theorem operandWritesStoreTheValue : Obligations.OperandWritesStoreTheValue := fun s v =>
  ⟨memWrite_rw s (r := .poly) v rfl rfl, memWrite_rw s (r := .len) v rfl rfl, memWrite_rw s (r := .pos) v rfl rfl,
    memWrite_rw s (r := .wanted) v rfl rfl⟩

end Sys2Proof.Machine
end

section
/-! The address map window by window (R50 to R56), and the accesses it accepts (R59). -/

namespace Sys2Proof.Machine

theorem regionOf_register (m : Nat) {a : Nat} (h : a < 0x400) :
    regionOf m a = (getAt registerMap a).getD .unmapped := if_pos h

theorem regionOf_ft (m : Nat) {a : Nat} (lo : 0x400 ≤ a) (hi : a < 0x800) :
    regionOf m a = .ft (BitVec.ofNat 8 ((a - 0x400) / 4)) := by
  rw [regionOf, if_neg (by omega), if_pos hi]

theorem regionOf_rt (m : Nat) {a : Nat} (lo : 0x800 ≤ a) (hi : a < 0xC00) :
    regionOf m a = .rt (BitVec.ofNat 8 ((a - 0x800) / 4)) := by
  rw [regionOf, if_neg (by omega), if_neg (by omega), if_pos hi]

/-- The last register is MAXLEN (R51). -/
theorem getAt_registerMap_of_ge {a : Nat} (h : 0x028 ≤ a) : getAt registerMap a = none := by
  simp (disch := omega) only [registerMap, getAt, if_neg]

/-- The reserved offsets (R54). -/
theorem regionOf_reserved (m : Nat) {a : Nat} (h : (0x028 ≤ a ∧ a ≤ 0x3FF) ∨ (0xC00 ≤ a ∧ a ≤ 0xFFFF)) :
    regionOf m a = .unmapped := by
  obtain ⟨lo, hi⟩ | ⟨lo, hi⟩ := h
  · rw [regionOf_register m (by omega), getAt_registerMap_of_ge lo, Option.getD_none]
  · unfold regionOf dataBase
    rw [if_neg (by omega), if_neg (by omega), if_neg (by omega), if_pos (by omega)]

theorem regionOf_inData {m a : Nat} (h : InData m a) (hm : m ≤ 0xFFFC) : regionOf m a = .data (a - 0x10000) := by
  obtain ⟨lo, hi⟩ := h
  unfold regionOf dataBase outBase
  rw [if_neg (by omega), if_neg (by omega), if_neg (by omega), if_neg (by omega), if_pos (by omega), if_pos (by omega)]

theorem regionOf_inOut {m a : Nat} (h : InOut m a) (hm : m ≤ 0xFFFC) : regionOf m a = .out (a - 0x20000) := by
  obtain ⟨lo, hi⟩ := h
  unfold regionOf dataBase outBase
  rw [if_neg (by omega), if_neg (by omega), if_neg (by omega), if_neg (by omega), if_neg (by omega),
    if_pos (by omega), if_pos (by omega)]

/-- What is neither DATA nor OUT from 0x10000 on is not mapped (R50, R55, R56). -/
theorem regionOf_beyond {m a : Nat} (h : 0x10000 ≤ a) (hd : ¬ InData m a) (ho : ¬ InOut m a) :
    regionOf m a = .unmapped := by
  simp only [InData, InOut] at hd ho
  unfold regionOf dataBase outBase
  rw [if_neg (by omega), if_neg (by omega), if_neg (by omega), if_neg (by omega)]
  split_ifs
  · omega
  · rfl
  · omega
  · rfl
  · rfl

/-- Where an offset lies in the address map of a block with MAXLEN = `m`, and the region that stands there. -/
inductive Window (m a : Nat) : Region → Prop where
  | register (hi : a < 0x400) : Window m a ((getAt registerMap a).getD .unmapped)
  | ft (i : Byte) (lo : 0x400 ≤ a) (hi : a < 0x800) : Window m a (.ft i)
  | rt (i : Byte) (lo : 0x800 ≤ a) (hi : a < 0xC00) : Window m a (.rt i)
  | data (i : Nat) (inData : InData m a) : Window m a (.data i)
  | out (i : Nat) (inOut : InOut m a) : Window m a (.out i)
  | unmapped (lo : 0xC00 ≤ a) (notData : ¬ InData m a) (notOut : ¬ InOut m a) : Window m a .unmapped

/-- Every offset lies in one of the windows. -/
theorem regionOf_window {m : Nat} (a : Nat) (hm : m ≤ 0xFFFC) : Window m a (regionOf m a) := by
  by_cases hreg : a < 0x400
  · rw [regionOf_register m hreg]; exact .register hreg
  by_cases hft : a < 0x800
  · rw [regionOf_ft m (by omega) hft]; exact .ft _ (by omega) hft
  by_cases hrt : a < 0xC00
  · rw [regionOf_rt m (by omega) hrt]; exact .rt _ (by omega) hrt
  by_cases hd : InData m a
  · rw [regionOf_inData hd hm]; exact .data _ hd
  by_cases ho : InOut m a
  · rw [regionOf_inOut ho hm]; exact .out _ ho
  by_cases hres : a < 0x10000
  · rw [regionOf_reserved m (.inr (by omega))]; exact .unmapped (by omega) hd ho
  · rw [regionOf_beyond (by omega) hd ho]; exact .unmapped (by omega) hd ho

/-- What each offset of the register window serves: aligned words alone, of CMD for writes, of STATUS to MAXLEN for
reads, and of POLY to WANTED for both (R51, R59). -/
theorem accessRow_register (a : Nat) : accessRow ((getAt registerMap a).getD .unmapped) =
    { width1 := false
      width4 := decide (a % 4 = 0 ∧ a < 0x028)
      read := decide (a % 4 = 0 ∧ 0x004 ≤ a ∧ a < 0x028)
      write := decide (a % 4 = 0 ∧ (a = 0x000 ∨ (0x008 ≤ a ∧ a < 0x018))) } := by
  by_cases h : a < 0x028
  · revert a
    decide
  · rw [getAt_registerMap_of_ge (Nat.not_lt.1 h)]
    simp [accessRow]
    omega

/-- Every readable region serves aligned words, and some serve single bytes (R59). -/
theorem readOk_iff {m a n : Nat} : readOk m a n = true ↔ (accessRow (regionOf m a)).read = true ∧
    ((n = 4 ∧ a % 4 = 0) ∨ (n = 1 ∧ (accessRow (regionOf m a)).width1 = true)) := by
  unfold readOk
  cases regionOf m a <;> simp [widthOk, accessRow, or_comm]

/-- Every writable region serves aligned words, and some serve single bytes (R59). -/
theorem writeOk_iff {m a n : Nat} : writeOk m a n = true ↔ (accessRow (regionOf m a)).write = true ∧
    ((n = 4 ∧ a % 4 = 0) ∨ (n = 1 ∧ (accessRow (regionOf m a)).width1 = true)) := by
  unfold writeOk
  cases regionOf m a <;> simp [widthOk, accessRow, or_comm]

/-- The port accepts exactly the reads of R59. -/
theorem readOk_iff_legalRead {m a n : Nat} (hm : m ≤ 0xFFFC) : readOk m a n = true ↔ LegalRead m a n := by
  rw [readOk_iff]
  have w := regionOf_window a hm
  generalize regionOf m a = r at w ⊢
  cases w with
  | register hi =>
    rw [accessRow_register]
    simp only [LegalRead, InData, InOut, decide_eq_true_eq, Bool.false_eq_true, and_false, or_false]
    omega
  | ft | rt | data | out | unmapped =>
    simp only [accessRow, LegalRead, InData, InOut, Bool.false_eq_true, and_true, true_and, and_false, false_and,
      or_false, false_iff] at *
    omega

/-- The port accepts exactly the writes of R59. -/
theorem writeOk_iff_legalWrite {m a n : Nat} (hm : m ≤ 0xFFFC) : writeOk m a n = true ↔ LegalWrite m a n := by
  rw [writeOk_iff]
  have w := regionOf_window a hm
  generalize regionOf m a = r at w ⊢
  cases w with
  | register hi =>
    rw [accessRow_register]
    simp only [LegalWrite, InData, decide_eq_true_eq, Bool.false_eq_true, and_false, or_false]
    omega
  | ft | rt | data | out | unmapped =>
    simp only [accessRow, LegalWrite, InData, InOut, Bool.false_eq_true, and_true, true_and, and_false, false_and,
      or_false, false_iff] at *
    omega

end Sys2Proof.Machine
end

section
/-! Reads and writes at the port, by the region that stands at the offset (R60, R61, R63). -/

namespace Sys2Proof.Machine

/-- A read the port does not accept (R63). -/
theorem memRead_of_not_readOk {s : State} {a n : Nat} (h : readOk s.maxlen.toNat a n = false) :
    memRead s a n = .error (.hostBusError a) := by
  simp [memRead, h]

/-- A write the port does not accept (R63). -/
theorem memWrite_of_not_writeOk {s : State} {a n : Nat} (v : Word) (h : writeOk s.maxlen.toNat a n = false) :
    memWrite s a n v = .fault (.hostBusError a) := by
  simp [memWrite, h]

/-- No read of a region that is not readable completes, of any width. -/
theorem memRead_of_not_readable {s : State} {a : Nat} (n : Nat)
    (h : (accessRow (regionOf s.maxlen.toNat a)).read = false) : memRead s a n = .error (.hostBusError a) :=
  memRead_of_not_readOk (by rw [readOk, h, Bool.and_false])

/-- No write of a region that is not writable completes, of any width. -/
theorem memWrite_of_not_writable {s : State} {a : Nat} (n : Nat) (v : Word)
    (h : (accessRow (regionOf s.maxlen.toNat a)).write = false) : memWrite s a n v = .fault (.hostBusError a) :=
  memWrite_of_not_writeOk v (by rw [writeOk, h, Bool.and_false])

/-- A table entry is read at an aligned offset of its window. -/
theorem memRead_ft (s : State) {a : Nat} {i : Byte} (at_a : regionOf s.maxlen.toNat a = .ft i) (aligned : a % 4 = 0) :
    memRead s a 4 = .ok (entry s.ft i) := by
  simp [memRead, readOk, widthOk, accessRow, at_a, aligned]

theorem memRead_rt (s : State) {a : Nat} {i : Byte} (at_a : regionOf s.maxlen.toNat a = .rt i) (aligned : a % 4 = 0) :
    memRead s a 4 = .ok (entry s.rt i) := by
  simp [memRead, readOk, widthOk, accessRow, at_a, aligned]

/-- A byte, or an aligned word, of DATA at index `i` (R55, R60). -/
theorem memRead_data {s : State} (legal : maxlenLegal s.maxlen = true) {i n : Nat} (mapped : i < s.maxlen.toNat)
    (width : n = 1 ∨ (n = 4 ∧ i % 4 = 0)) :
    memRead s (0x10000 + i) n = bufferAnswer (0x10000 + i) (readBuffer s.data i n) := by
  obtain ⟨-, hm, -⟩ := maxlenLegal_iff.1 legal
  have inData : InData s.maxlen.toNat (0x10000 + i) := ⟨by omega, by omega⟩
  have ok : readOk s.maxlen.toNat (0x10000 + i) n = true := by
    rw [readOk_iff_legalRead hm]
    exact width.elim (fun h => .inr ⟨h, .inl inData⟩) fun h => .inl ⟨h.1, by omega, .inr (.inr (.inl inData))⟩
  simp only [memRead, ok, if_true, regionOf_inData inData hm, Nat.add_sub_cancel_left]

/-- A byte, or an aligned word, of OUT at index `i` (R56, R60). -/
theorem memRead_out {s : State} (legal : maxlenLegal s.maxlen = true) {i n : Nat} (mapped : i < s.maxlen.toNat + 4)
    (width : n = 1 ∨ (n = 4 ∧ i % 4 = 0)) :
    memRead s (0x20000 + i) n = bufferAnswer (0x20000 + i) (readBuffer s.out i n) := by
  obtain ⟨-, hm, -⟩ := maxlenLegal_iff.1 legal
  have inOut : InOut s.maxlen.toNat (0x20000 + i) := ⟨by omega, by omega⟩
  have ok : readOk s.maxlen.toNat (0x20000 + i) n = true := by
    rw [readOk_iff_legalRead hm]
    exact width.elim (fun h => .inr ⟨h, .inr inOut⟩) fun h => .inl ⟨h.1, by omega, .inr (.inr (.inr inOut))⟩
  simp only [memRead, ok, if_true, regionOf_inOut inOut hm, Nat.add_sub_cancel_left]

/-- A write of a byte, or of an aligned word, of DATA at index `i` (R55, R61). -/
theorem memWrite_data {s : State} (legal : maxlenLegal s.maxlen = true) {i n : Nat} (v : Word)
    (mapped : i < s.maxlen.toNat) (width : n = 1 ∨ (n = 4 ∧ i % 4 = 0)) :
    memWrite s (0x10000 + i) n v = .next (writeData s i n v) := by
  obtain ⟨-, hm, -⟩ := maxlenLegal_iff.1 legal
  have inData : InData s.maxlen.toNat (0x10000 + i) := ⟨by omega, by omega⟩
  have ok : writeOk s.maxlen.toNat (0x10000 + i) n = true := by
    rw [writeOk_iff_legalWrite hm]
    exact width.elim (fun h => .inr ⟨h, inData⟩) fun h => .inl ⟨h.1, by omega, .inr (.inr inData)⟩
  simp only [memWrite, ok, if_true, regionOf_inData inData hm, Nat.add_sub_cancel_left]

/-- A command meets no model fault but at an unwritten byte of `DATA[0:LEN]` (R74). -/
theorem exec_next_or_fault (i : Instr) (s : State) :
    (∃ t, exec i s = .next t) ∨ ∃ j, j < s.len.toNat ∧ s.data.read j = none ∧ exec i s = engineFault j := by
  cases i with
  | build => exact .inl ⟨_, rfl⟩
  | crc =>
    simp only [exec]
    obtain ⟨-, e⟩ | ⟨-, seq, -, e⟩ | ⟨-, j, hj, unwritten, e⟩ := execCrc_cases s
    · exact .inl ⟨_, e⟩
    · exact .inl ⟨_, e⟩
    · exact .inr ⟨j, hj, unwritten, e⟩
  | forgeAppend =>
    simp only [exec]
    obtain ⟨-, e⟩ | ⟨-, e⟩ := execForgeAppend_cases s
    · exact .inl ⟨_, e⟩
    · rw [e]
      exact (forgeAt_cases s (Nat.le_refl _)).imp (fun ⟨_, _, e⟩ => ⟨_, e⟩) id
  | forge =>
    simp only [exec]
    obtain ⟨-, e⟩ | ⟨-, -, e⟩ | ⟨-, inside, e⟩ := execForge_cases s
    · exact .inl ⟨_, e⟩
    · exact .inl ⟨_, e⟩
    · rw [e]
      exact (forgeAt_cases s inside).imp (fun ⟨_, _, e⟩ => ⟨_, e⟩) id

/-- No CMD write is a bus error. -/
theorem commandWrite_ne_busError (w : Word) (s : State) (off : Int) :
    commandWrite w s ≠ .fault (.hostBusError off) := by
  unfold commandWrite
  split
  · next i _ =>
    obtain ⟨t, e⟩ | ⟨j, -, -, e⟩ := exec_next_or_fault i s <;> rw [e] <;> simp [engineFault]
  · simp [raiseCmdError]

/-- A buffer read is never a bus error: it answers a value, or faults at an unwritten byte. -/
theorem bufferAnswer_ne_busError (a : Nat) (x : Option Word) (off : Int) :
    bufferAnswer a x ≠ .error (.hostBusError off) := by
  cases x <;> simp [bufferAnswer]

/-- A read is a bus error exactly when the port does not accept it. -/
theorem memRead_busError_iff (s : State) (a n : Nat) :
    memRead s a n = .error (.hostBusError a) ↔ ¬ readOk s.maxlen.toNat a n = true := by
  refine ⟨fun h ok => ?_, fun h => memRead_of_not_readOk (Bool.eq_false_of_not_eq_true h)⟩
  have readable := (readOk_iff.1 ok).1
  simp only [memRead, ok, if_true] at h
  cases hr : regionOf s.maxlen.toNat a with
  | data i => simp only [hr] at h; exact bufferAnswer_ne_busError _ _ _ h
  | out i => simp only [hr] at h; exact bufferAnswer_ne_busError _ _ _ h
  | cmd | unmapped => simp [hr, accessRow] at readable
  | ro | rw | ft | rt => simp [hr] at h

/-- A write is a bus error exactly when the port does not accept it. -/
theorem memWrite_busError_iff (s : State) (a n : Nat) (v : Word) :
    memWrite s a n v = .fault (.hostBusError a) ↔ ¬ writeOk s.maxlen.toNat a n = true := by
  refine ⟨fun h ok => ?_, fun h => memWrite_of_not_writeOk v (Bool.eq_false_of_not_eq_true h)⟩
  have writable := (writeOk_iff.1 ok).1
  simp only [memWrite, ok, if_true] at h
  cases hr : regionOf s.maxlen.toNat a with
  | cmd => simp only [hr] at h; exact commandWrite_ne_busError _ _ _ h
  | rw | data => simp [hr] at h
  | ro | ft | rt | out | unmapped => simp [hr, accessRow] at writable

/-- Settles O40: the bus errors are the accesses the port does not accept, and it accepts those of R59. -/
theorem accessesAdmittedExactly : Obligations.AccessesAdmittedExactly := by
  intro s a n v legal
  obtain ⟨-, hm, -⟩ := maxlenLegal_iff.1 legal
  rw [memRead_busError_iff, readOk_iff_legalRead hm, memWrite_busError_iff, writeOk_iff_legalWrite hm]
  exact ⟨Iff.rfl, Iff.rfl⟩

/-- Settles O41: no region accepts a word at an offset that is not a multiple of 4. -/
theorem misalignedWordIsBusError : Obligations.MisalignedWordIsBusError := by
  intro s a v misaligned
  exact ⟨memRead_of_not_readOk (by simp [readOk, widthOk, misaligned]),
    memWrite_of_not_writeOk v (by simp [writeOk, widthOk, misaligned])⟩

/-- Settles O42: no region stands at a reserved offset, whatever MAXLEN. -/
theorem reservedOffsetsAreBusErrors : Obligations.ReservedOffsetsAreBusErrors := by
  intro s a n v reserved
  have unmapped := regionOf_reserved s.maxlen.toNat reserved
  exact ⟨memRead_of_not_readable n (by rw [unmapped]; rfl), memWrite_of_not_writable n v (by rw [unmapped]; rfl)⟩

/-- Settles O43: offset `4 * i` of each table window is the window's entry `i`, and neither window is writable. -/
theorem tableWindowsReadTheEntries : Obligations.TableWindowsReadTheEntries := by
  refine ⟨fun s i => ?_, fun s a n v lo hi => memWrite_of_not_writable n v ?_⟩
  · have := i.isLt
    constructor
    · refine memRead_ft s ?_ (by omega)
      rw [regionOf_ft _ (by omega) (by omega)]
      simp
    · refine memRead_rt s ?_ (by omega)
      rw [regionOf_rt _ (by omega) (by omega)]
      simp
  · by_cases hft : a < 0x800
    · rw [regionOf_ft _ lo hft]; rfl
    · rw [regionOf_rt _ (Nat.not_lt.1 hft) (Nat.lt_succ_of_le hi)]; rfl

end Sys2Proof.Machine
end

section
/-! Bytes and words of the two buffers (R57, R60, R61, R76). -/

namespace Sys2Proof.Machine

/-- `le32` of the four bytes of a word is the word (R11). -/
theorem le32_extractLsb' (v : Word) :
    le32 (v.extractLsb' 0 8) (v.extractLsb' 8 8) (v.extractLsb' 16 8) (v.extractLsb' 24 8) = v := by
  unfold le32
  rw [BitVec.extractLsb'_append_extractLsb'_eq_extractLsb' (by rfl),
    BitVec.extractLsb'_append_extractLsb'_eq_extractLsb' (by rfl),
    BitVec.extractLsb'_append_extractLsb'_eq_extractLsb' (by rfl)]
  exact BitVec.extractLsb'_eq_self

/-- Byte `k` of a word is `v[8k+7:8k]` (R11). -/
theorem leBytes_getElem? (v : Word) {k : Nat} (hk : k < 4) : (leBytes v)[k]? = some (v.extractLsb' (8 * k) 8) := by
  interval_cases k <;> rfl

/-- A byte of a word, zero-extended, is the word shifted down and masked. -/
theorem setWidth_extractLsb'_byte (v : Word) (lo : Nat) :
    (v.extractLsb' lo 8).setWidth 32 = (v >>> lo) &&& 0xFF := by
  have mask : (v.toNat >>> lo) &&& (0xFF : Word).toNat = (v.toNat >>> lo) % 2 ^ 8 :=
    Nat.and_two_pow_sub_one_eq_mod _ 8
  refine BitVec.eq_of_toNat_eq ?_
  rw [BitVec.toNat_and, BitVec.toNat_setWidth, BitVec.extractLsb'_toNat, BitVec.toNat_ushiftRight, mask]
  omega

/-- A one-byte read is the byte, zero-extended (R60). -/
theorem readBuffer_byte {m : Memory} {i : Nat} {b : Byte} (h : m.read i = some b) :
    readBuffer m i 1 = some (b.setWidth 32) := by
  simp [readBuffer, h]

/-- A word read is the little-endian composition of its four bytes (R57, R60). -/
theorem readBuffer_word {m : Memory} {i : Nat} {b0 b1 b2 b3 : Byte} (h0 : m.read i = some b0)
    (h1 : m.read (i + 1) = some b1) (h2 : m.read (i + 2) = some b2) (h3 : m.read (i + 3) = some b3) :
    readBuffer m i 4 = some (le32 b0 b1 b2 b3) := by
  simp [readBuffer, h0, h1, h2, h3]

/-- A buffer read has no value exactly when it covers an unwritten byte (R33, R34, R60). -/
theorem readBuffer_eq_none_iff {m : Memory} {i n : Nat} (width : n = 1 ∨ n = 4) :
    readBuffer m i n = none ↔ ∃ k, k < n ∧ m.read (i + k) = none := by
  obtain rfl | rfl := width
  · simp [readBuffer]
  constructor
  · intro noValue
    by_contra! written
    obtain ⟨b0, h0⟩ := Option.ne_none_iff_exists'.1 (written 0 (by decide))
    obtain ⟨b1, h1⟩ := Option.ne_none_iff_exists'.1 (written 1 (by decide))
    obtain ⟨b2, h2⟩ := Option.ne_none_iff_exists'.1 (written 2 (by decide))
    obtain ⟨b3, h3⟩ := Option.ne_none_iff_exists'.1 (written 3 (by decide))
    simp [readBuffer_word (i := i) h0 h1 h2 h3] at noValue
  · rintro ⟨k, hk, unwritten⟩
    interval_cases k <;> simp_all [readBuffer]

/-- A buffer answer is the model fault at its offset exactly when there is no value (R60). -/
theorem bufferAnswer_unwritten_iff {a : Nat} {x : Option Word} :
    bufferAnswer a x = .error (.unwrittenRead a) ↔ x = none := by
  cases x <;> simp [bufferAnswer]

/-- Settles O49: a legal read answers what the buffer read gives, which has no value exactly at an unwritten byte. -/
theorem unwrittenBufferReadFaults : Obligations.UnwrittenBufferReadFaults := by
  intro s i n legal width
  have narrow : n = 1 ∨ n = 4 := width.imp_right And.left
  constructor <;> intro mapped
  · rw [memRead_data legal mapped width, bufferAnswer_unwritten_iff, readBuffer_eq_none_iff narrow]
  · rw [memRead_out legal mapped width, bufferAnswer_unwritten_iff, readBuffer_eq_none_iff narrow]

/-- Settles O48: both buffers answer an aligned word by the little-endian word read. -/
theorem bufferWordReadIsLittleEndian : Obligations.BufferWordReadIsLittleEndian := by
  intro s k b0 b1 b2 b3 legal
  have width : 4 = 1 ∨ (4 = 4 ∧ 4 * k % 4 = 0) := .inr ⟨rfl, Nat.mul_mod_right 4 k⟩
  constructor <;> intro mapped h0 h1 h2 h3
  · rw [memRead_data legal mapped width, readBuffer_word h0 h1 h2 h3, bufferAnswer]
  · rw [memRead_out legal mapped width, readBuffer_word h0 h1 h2 h3, bufferAnswer]

/-- Byte `k` of a word written to DATA at index `i` (R61). -/
theorem writeData_word_read (s : State) (i : Nat) (v : Word) {k : Nat} (hk : k < 4) :
    (writeData s i 4 v).data.read (i + k) = some (v.extractLsb' (8 * k) 8) := by
  rw [writeData_data, if_neg (by decide), Memory.read_writeBytes, if_pos (by rw [leBytes_length]; omega),
    Nat.add_sub_cancel_left, leBytes_getElem? v hk]

/-- The bytes of DATA outside a word write. -/
theorem writeData_word_read_outside (s : State) {i j : Nat} (v : Word) (outside : j < i ∨ i + 4 ≤ j) :
    (writeData s i 4 v).data.read j = s.data.read j := by
  rw [writeData_data, if_neg (by decide), Memory.read_writeBytes, if_neg (by rw [leBytes_length]; omega)]

/-- DATA after a byte write (R61). -/
theorem writeData_byte_read (s : State) (i j : Nat) (v : Word) :
    (writeData s i 1 v).data.read j = if j = i then some (lowByte v) else s.data.read j := by
  rw [writeData_data, if_pos rfl, Memory.read_write]

/-- Settles O46: the write stores the four bytes of the word; each reads back alone, and `le32` of them is the word. -/
theorem dataWordWriteReadsBack : Obligations.DataWordWriteReadsBack := by
  intro s i v legal aligned mapped
  have width : 4 = 1 ∨ (4 = 4 ∧ i % 4 = 0) := .inr ⟨rfl, aligned⟩
  have legal' : maxlenLegal (writeData s i 4 v).maxlen = true := legal
  have bytes (k) (hk : k < 4) := writeData_word_read s i v hk
  refine ⟨_, memWrite_data legal v mapped width, rfl, ?_, fun k hk => ?_, fun j => writeData_word_read_outside s v⟩
  · rw [memRead_data legal' mapped width, readBuffer_word (i := i) (bytes 0 (by decide)) (bytes 1 (by decide))
      (bytes 2 (by decide)) (bytes 3 (by decide)), le32_extractLsb', bufferAnswer]
  · obtain ⟨-, -, hmod⟩ := maxlenLegal_iff.1 legal
    have inside : i + k < (writeData s i 4 v).maxlen.toNat := by rw [writeData_maxlen]; omega
    rw [Nat.add_assoc, memRead_data legal' inside (.inl rfl), readBuffer_byte (bytes k hk), setWidth_extractLsb'_byte,
      bufferAnswer]

/-- Settles O47: the write stores the low byte of the word. -/
theorem dataByteWriteReadsBack : Obligations.DataByteWriteReadsBack := by
  intro s i v legal mapped
  have legal' : maxlenLegal (writeData s i 1 v).maxlen = true := legal
  have stored : (writeData s i 1 v).data.read i = some (lowByte v) := by rw [writeData_byte_read, if_pos rfl]
  refine ⟨_, memWrite_data legal v mapped (.inl rfl), rfl, ?_, fun j hj => by rw [writeData_byte_read, if_neg hj]⟩
  rw [memRead_data legal' mapped (.inl rfl), readBuffer_byte stored, lowByte, setWidth_extractLsb'_byte, bufferAnswer,
    BitVec.ushiftRight_zero]

end Sys2Proof.Machine
end

section
/-! The operands of a command, its model fault, and a host read (R73, R74, R31, R65). -/

namespace Sys2Proof.Machine

/-- No command writes DATA, an operand register or MAXLEN, or touches the host (R73, R82). -/
theorem CommandMove.operands {w : Word} {s t : State} (move : CommandMove w s t) :
    t.data = s.data ∧ t.poly = s.poly ∧ t.len = s.len ∧ t.pos = s.pos ∧ t.wanted = s.wanted ∧
      t.maxlen = s.maxlen ∧ t.host = s.host := by
  cases move with
  | error | build | crc | forge => exact ⟨rfl, rfl, rfl, rfl, rfl, rfl, rfl⟩

/-- MAXLEN is hardwired: no move of the block changes it (R31). -/
theorem BlockMove.maxlen {s t : State} (move : BlockMove s t) : t.maxlen = s.maxlen := by
  cases move with
  | none | data | reset => rfl
  | command w t _ ran =>
    obtain ⟨-, -, -, -, -, hmaxlen, -⟩ := (commandWrite_move ran).operands
    exact hmaxlen
  | register v r => exact writeRw_maxlen s v r

/-- Settles O57, by the moves of a command and of the block. -/
theorem noCommandWritesItsOperands : Obligations.NoCommandWritesItsOperands := by
  refine ⟨fun w s t ran => (commandWrite_move ran).operands, fun s t hstep => ?_⟩
  obtain ⟨u, move, same⟩ := step_blockMove hstep
  rw [show t = { u with host := t.host } from same]
  exact move.maxlen

/-- A forge command whose checks pass runs the steps of R146 at its position. -/
theorem exec_eq_forgeAt {i : Instr} {s : State} (isForge : IsForge i) (fits : s.len.toNat ≤ s.maxlen.toNat)
    (inside : forgePos i s ≤ s.len.toNat) : exec i s = forgeAt s s.len.toNat (forgePos i s) := by
  obtain rfl | rfl := isForge
  · simp only [forgePos] at inside ⊢
    simp [exec, execForge, State.lenTooLong, State.posPastEnd, Nat.not_lt.2 fits, Nat.not_lt.2 inside]
  · simp [exec, execForgeAppend, State.lenTooLong, Nat.not_lt.2 fits, forgePos]

/-- CRC is the one command besides BUILD and the forge commands. -/
theorem isForge_or_crc {i : Instr} (h : i ≠ .build) : IsForge i ∨ i = .crc := by
  cases i with
  | build => exact absurd rfl h
  | crc => exact .inr rfl
  | forge => exact .inl (.inl rfl)
  | forgeAppend => exact .inl (.inr rfl)

/-- A command that reads DATA, its checks passed, faults at an unwritten byte if there is one (R74). -/
theorem exec_fault_of_unwritten {i : Instr} {s : State} (reads : i ≠ .build) (fits : s.len.toNat ≤ s.maxlen.toNat)
    (inside : forgePos i s ≤ s.len.toNat) (unwritten : ∃ j, j < s.len.toNat ∧ s.data.read j = none) :
    ∃ j, j < s.len.toNat ∧ s.data.read j = none ∧ exec i s = engineFault j := by
  obtain ⟨j, hj, hnone⟩ := unwritten
  obtain isForge | rfl := isForge_or_crc reads
  · rw [exec_eq_forgeAt isForge fits inside]
    exact forgeAt_fault inside hj hnone
  · obtain ⟨hl, -⟩ | ⟨-, seq, data, -⟩ | ⟨-, fault⟩ := execCrc_cases s
    · omega
    · have written := reads_written (dataIs_iff_reads.1 data) j hj
      rw [Nat.zero_add] at written
      exact absurd hnone written
    · exact fault

/-- A command whose check fails completes, and so meets no fault (R172, R177). -/
theorem exec_next_of_check_fails {i : Instr} {s : State} (reads : i ≠ .build)
    (failed : s.maxlen.toNat < s.len.toNat ∨ s.len.toNat < forgePos i s) : ∃ t, exec i s = .next t := by
  cases i with
  | build => exact absurd rfl reads
  | crc =>
    obtain ⟨-, e⟩ | ⟨-, seq, -, e⟩ | ⟨hl, -⟩ := execCrc_cases s
    · exact ⟨_, e⟩
    · exact ⟨_, e⟩
    · simp only [forgePos] at failed; omega
  | forgeAppend =>
    obtain ⟨-, e⟩ | ⟨hl, -⟩ := execForgeAppend_cases s
    · exact ⟨_, e⟩
    · simp only [forgePos] at failed; omega
  | forge =>
    obtain ⟨-, e⟩ | ⟨-, -, e⟩ | ⟨hl, hp, -⟩ := execForge_cases s
    · exact ⟨_, e⟩
    · exact ⟨_, e⟩
    · simp only [forgePos] at failed; omega

/-- Settles O37, by the two sides of the checks. -/
theorem unwrittenDataFaultsTheCommand : Obligations.UnwrittenDataFaultsTheCommand := by
  intro i s reads
  exact ⟨exec_fault_of_unwritten reads, exec_next_of_check_fails reads⟩

/-- A host read that answers assigns the value, and moves the host on (R60, R87). -/
theorem hostRead_of_ok {s : State} {a n : Nat} {v : Word} (h : HostVar) (answers : memRead s a n = .ok v) :
    hostRead s n (a : Int) h = .next (s.setVar h v.toNat).advance := by
  simp only [hostRead, answers]

/-- A host read that completes has assigned the host variable and moved the host on, and nothing else. -/
theorem hostRead_next {s t : State} {n : Nat} {off : Int} {h : HostVar} (ran : hostRead s n off h = .next t) :
    ∃ v, t = (s.setVar h v).advance := by
  unfold hostRead at ran
  split at ran
  · split at ran
    · next v _ => cases ran; exact ⟨v.toNat, rfl⟩
    · cases ran
  · cases ran

theorem step_of_rd {s : State} {n : Nat} {off : HostExpr} {h : HostVar} (op : s.currentOp = some (.rd n off h)) :
    step s = hostRead s n (s.eval off) h := by
  simp only [step, op, runOp]

/-- Settles O51, by what a host read does. -/
theorem hostReadLeavesTheBlockUnchanged : Obligations.HostReadLeavesTheBlockUnchanged := by
  refine ⟨fun s n off h a v op offset answers => ?_, fun s n off h t op hstep => ?_⟩
  · rw [step_of_rd op, offset, hostRead_of_ok h answers]
  · rw [step_of_rd op] at hstep
    obtain ⟨v, rfl⟩ := hostRead_next hstep
    rfl

end Sys2Proof.Machine
end

section
/-! What a forge command that ends with ERR 0 leaves in OUT (R58, R146). -/

namespace Sys2Proof.Machine

theorem errBits_eq_zero_iff {code : ErrCode} : errBits code = 0 ↔ code = .ok := by
  cases code <;> decide

/-- The word of a command decodes to it (R83). -/
theorem decode_encode (i : Instr) : decode (encode i) = .command i := by
  cases i <;> decide

theorem encode_injective {i j : Instr} (h : encode i = encode j) : i = j := by
  have same := congrArg decode h
  rwa [decode_encode, decode_encode, Decoded.command.injEq] at same

/-- The CMD write of a command's word runs that command (R84). -/
theorem commandWrite_encode (i : Instr) (s : State) : commandWrite (encode i) s = exec i s := by
  simp only [commandWrite, decode_encode]

/-- A forge command that ends with ERR 0 has passed its checks and written the forged sequence of a written
`DATA[0:LEN]` (R146, R147). -/
theorem exec_forged {i : Instr} {s t : State} (isForge : IsForge i) (ran : exec i s = .next t) (ok : t.err = 0) :
    forgePos i s ≤ s.len.toNat ∧ ∃ seq, s.DataIs seq ∧
      t = (s.setForged (forgeOut s.ft s.rt s.wanted seq (forgePos i s))
        (forgePatch s.ft s.rt s.wanted seq (forgePos i s)) (BitVec.ofNat 32 (s.len.toNat + 4))).complete := by
  rw [← commandWrite_encode] at ran
  cases commandWrite_move ran with
  | error failed => exact absurd (errBits_eq_zero_iff.1 ok) failed
  | build word => cases encode_injective word; simp [IsForge] at isForge
  | crc word => cases encode_injective word; simp [IsForge] at isForge
  | forge j _ word _ inside seq data =>
    cases encode_injective word
    exact ⟨inside, seq, data, rfl⟩

/-- The patch stands at its position in the spliced sequence (R144). -/
theorem splice_getElem?_patch {seq : List Byte} {pos k : Nat} (patch : Word) (hp : pos ≤ seq.length) (hk : k < 4) :
    (splice seq pos patch)[pos + k]? = (leBytes patch)[k]? := by
  have takeLength : (seq.take pos).length = pos := List.length_take_of_le hp
  rw [splice, List.append_assoc, List.getElem?_append_right (by omega), takeLength, Nat.add_sub_cancel_left,
    List.getElem?_append_left (by rw [leBytes_length]; exact hk)]

/-- The bytes of OUT at the position of a forge command that ends with ERR 0 are those of PATCH (R58). -/
theorem exec_forged_patch_bytes {i : Instr} {s t : State} (isForge : IsForge i) (ran : exec i s = .next t)
    (ok : t.err = 0) {k : Nat} (hk : k < 4) : t.out.read (forgePos i s + k) = some (t.patch.extractLsb' (8 * k) 8) := by
  obtain ⟨inside, seq, ⟨hlen, -⟩, rfl⟩ := exec_forged isForge ran ok
  have hpos : forgePos i s ≤ seq.length := by omega
  rw [complete_out, setForged_out, Memory.read_writeBytes, if_pos (by rw [forgeOut_length _ _ _ hpos]; omega),
    Nat.sub_zero, forgeOut, splice_getElem?_patch _ hpos hk, leBytes_getElem? _ hk]
  rfl

/-- Settles O24: the four bytes of OUT are those of PATCH, and PATCH reads as their `le32`. -/
theorem patchIsLittleEndianInOut : Obligations.PatchIsLittleEndianInOut := by
  intro i s t isForge ran ok
  have bytes (k) (hk : k < 4) := exec_forged_patch_bytes isForge ran ok hk
  refine ⟨_, _, _, _, bytes 0 (by decide), bytes 1 (by decide), bytes 2 (by decide), bytes 3 (by decide),
    rfl, rfl, rfl, rfl, ?_⟩
  rw [le32_extractLsb']
  exact memRead_ro t (r := .patch) rfl rfl

end Sys2Proof.Machine
end

section
/-! The command word as its three fields, and decoding read off the fields (R81, R83 to R85). -/

namespace Sys2Proof

/-- A statement about every command, as one for each row of the opcode map (R83). -/
theorem Instr.forall_iff {P : Instr → Prop} :
    (∀ i, P i) ↔ P .build ∧ P .crc ∧ P .forgeAppend ∧ P .forge := by
  refine ⟨fun h => ⟨h _, h _, h _, h _⟩, fun ⟨hbuild, hcrc, happend, hforge⟩ i => ?_⟩
  cases i with
  | build => exact hbuild
  | crc => exact hcrc
  | forgeAppend => exact happend
  | forge => exact hforge

/-- The three fields cover the whole word (R81). -/
theorem fields_append (w : Word) : rsvdField w ++ BitVec.ofBool (pField w) ++ opField w = w := by
  have flag : BitVec.ofBool (pField w) = w.extractLsb' 4 1 := by
    ext k hk
    obtain rfl : k = 0 := by omega
    simp [pField]
  rw [flag, rsvdField, opField, BitVec.extractLsb'_append_extractLsb'_eq_extractLsb' (by rfl),
    BitVec.extractLsb'_append_extractLsb'_eq_extractLsb' (by rfl)]
  exact BitVec.extractLsb'_eq_self

/-- The fields of a command's word are those of its row (R83). -/
theorem encode_fields (i : Instr) :
    rsvdField (encode i) = 0 ∧ opField (encode i) = opOf i ∧ pField (encode i) = pOf i := by
  cases i with
  | build => exact Laws.CommandWord.build
  | crc => exact Laws.CommandWord.crc
  | forgeAppend => exact Laws.CommandWord.forgeAppend
  | forge => exact Laws.CommandWord.forge

/-- A word is a command's exactly when its fields are those of the row (R83). -/
theorem eq_encode_iff {w : Word} {i : Instr} :
    w = encode i ↔ rsvdField w = 0 ∧ pField w = pOf i ∧ opField w = opOf i := by
  constructor
  · rintro rfl
    obtain ⟨rsvd, op, p⟩ := encode_fields i
    exact ⟨rsvd, p, op⟩
  · rintro ⟨rsvd, p, op⟩
    rw [← fields_append w, rsvd, p, op]
    rfl

/-- The pairs of P and OP that no row of the opcode map has (R85). -/
theorem no_row_iff (p : Bool) (op : BitVec 4) :
    (∀ i, ¬ (p = pOf i ∧ op = opOf i)) ↔ op = 0 ∨ 4 ≤ op.toNat ∨ (p = true ∧ op ≠ 3) := by
  rw [Instr.forall_iff]
  revert p op
  decide

/-- Decoding inverts encoding, on whole words (R84). -/
theorem decode_eq_command_iff {w : Word} {i : Instr} : decode w = .command i ↔ w = encode i := by
  refine ⟨Machine.eq_encode_of_decode, ?_⟩
  rintro rfl
  exact Machine.decode_encode i

/-- The illegal words are all but those of the opcode map (R85). -/
theorem decode_illegal_iff {w : Word} : (∃ why, decode w = .illegal why) ↔ ∀ i, w ≠ encode i := by
  simp only [ne_eq, ← decode_eq_command_iff]
  cases decode w <;> simp

/-- The illegal words by their fields: the three kinds of R85. -/
theorem decode_illegal_iff_fields {w : Word} : (∃ why, decode w = .illegal why) ↔
    (opField w = 0 ∨ 4 ≤ (opField w).toNat ∨ (pField w = true ∧ opField w ≠ 3) ∨ rsvdField w ≠ 0) := by
  simp only [decode_illegal_iff, ne_eq, eq_encode_iff]
  by_cases rsvd : rsvdField w = 0
  · simpa [rsvd] using no_row_iff (pField w) (opField w)
  · exact ⟨fun _ => .inr (.inr (.inr rsvd)), fun _ i fields => rsvd fields.1⟩

/-- Settles O2: the fields of each row are the encoder's, and decoding inverts encoding. -/
theorem opcodeMapIsComplete : Obligations.OpcodeMapIsComplete := by
  refine ⟨by decide, fun i => ?_, fun w i => decode_eq_command_iff⟩
  obtain ⟨rsvd, op, p⟩ := encode_fields i
  rw [op, p]
  refine ⟨rsvd, ?_, ?_⟩
  · cases i <;> decide
  · cases i <;> rfl

/-- Settles O1: the four words are those of the opcode map, and each bad word has an illegal field. -/
theorem listedWordsDecode : Obligations.ListedWordsDecode := by
  obtain ⟨⟨build, crc, forgeAppend, forge⟩, -, decodes⟩ := opcodeMapIsComplete
  refine ⟨(decodes _ _).2 build.symm, (decodes _ _).2 crc.symm, (decodes _ _).2 forgeAppend.symm,
    (decodes _ _).2 forge.symm, List.forall_iff_forall_mem.1 ?_⟩
  simp only [decode_illegal_iff_fields]
  decide

end Sys2Proof

namespace Sys2Proof.Machine

/-- An illegal command word changes ERR alone (R85, R172, R174). -/
theorem commandWrite_illegal {w : Word} {why : IllegalWord} (illegal : decode w = .illegal why) (s : State) :
    commandWrite w s = .next { s with err := 2 } := by
  simp only [commandWrite, illegal]
  rfl

/-- Settles O3, by the fields of the illegal words and the CMD write of one. -/
theorem illegalWordsByField : Obligations.IllegalWordsByField := fun _ =>
  ⟨decode_illegal_iff_fields, decode_illegal_iff, fun ⟨_, illegal⟩ => commandWrite_illegal illegal⟩

end Sys2Proof.Machine
end

section
/-! One step by the host's current operation: a CMD write, and the operations that are the host's alone (R64, R87). -/

namespace Sys2Proof.Machine

/-- A word write at offset 0 is a CMD write (R51, R61). -/
theorem memWrite_cmd (s : State) (w : Word) : memWrite s 0 4 w = commandWrite w s := rfl

/-- A step runs the host's current operation (R67). -/
theorem step_of_currentOp {s : State} {op : HostOp} (current : s.currentOp = some op) : step s = runOp op s := by
  simp only [step, current]

/-- A step whose operation is `WR32 CMD, w` is the CMD write of `w`, after which the host moves on (R64, R80). -/
theorem step_of_issues {s : State} {w : Word} (issues : s.Issues w) : step s = thenAdvance (commandWrite w s) := by
  obtain ⟨off, v, current, offset, rfl⟩ := issues
  rw [step_of_currentOp current, runOp, offset, ← memWrite_cmd]
  rfl

/-- The one-line program of a word issues that word. -/
theorem withFetchWord_issues (s : State) (w : Word) : (s.withFetchWord 32 w.toNat).Issues w := by
  refine ⟨.num 0, .num (w.toNat % 2 ^ 32 % 2 ^ 32 : Nat), rfl, rfl, ?_⟩
  rw [Nat.mod_mod, Nat.mod_eq_of_lt w.isLt]
  exact portWord_toNat w

/-- Settles O50: the step is the CMD write of the word, which runs its command or reports it illegal. -/
theorem stepRunsTheDecodedCommand : Obligations.StepRunsTheDecodedCommand := by
  refine ⟨fun s w i issues command => ?_, fun s w why issues illegal => ?_,
    fun s i => withFetchWord_issues s (encode i)⟩
  · rw [step_of_issues issues, commandWrite, command]
  · rw [step_of_issues issues, commandWrite_illegal illegal, thenAdvance]

/-- A jump to a label that names a line goes to the first such line (R87). -/
theorem jump_of_labelPosition {s : State} {l : Label} {k : Nat} (named : labelPosition s.host.program l = some k) :
    jump s l = .next (s.goTo k) := by
  simp only [jump, named]

/-- With no current operation the block idles and holds its state (R189, R213). -/
theorem step_of_ended {s : State} (ended : s.currentOp = none) : step s = .next s := by
  simp only [step, ended]

/-- Settles O52, operation by operation. -/
theorem hostControlTouchesTheHostAlone : Obligations.HostControlTouchesTheHostAlone := by
  refine ⟨fun s h e current => step_of_currentOp current, fun s a b l k named => ⟨?_, ?_, ?_⟩, ?_⟩
  · intro current
    rw [step_of_currentOp current, runOp, jump_of_labelPosition named]
    split <;> rfl
  · intro current
    rw [step_of_currentOp current, runOp, jump_of_labelPosition named, ite_not]
    split <;> rfl
  · intro current
    rw [step_of_currentOp current, runOp, jump_of_labelPosition named]
  · rintro s (ended | halted)
    · exact step_of_ended ended
    · exact step_of_currentOp halted

end Sys2Proof.Machine
end

section
/-! The one-bit steps `f_p` and `g_p`: closed forms, linearity, and how they undo each other (R106, R107). -/

namespace Sys2Proof.Machine

theorem fBit_of_clear {a : Word} (p : Word) (low : a.getLsbD 0 = false) : fBit p a = a >>> 1 := by
  rw [fBit, low]
  rfl

theorem fBit_of_set {a : Word} (p : Word) (low : a.getLsbD 0 = true) : fBit p a = (a >>> 1) ^^^ p := by
  rw [fBit, if_pos low]

theorem gBit_of_clear {a : Word} (p : Word) (high : a.getLsbD 31 = false) : gBit p a = a <<< 1 := by
  rw [gBit, high]
  rfl

theorem gBit_of_set {a : Word} (p : Word) (high : a.getLsbD 31 = true) : gBit p a = ((a ^^^ p) <<< 1) ||| 1 := by
  rw [gBit, if_pos high]

/-- The forward step in closed form: a shift, and `p` where the bit shifted out is set (R106). -/
theorem fBit_eq (p a : Word) : fBit p a = (a >>> 1) ^^^ (if a.getLsbD 0 then p else 0) := by
  cases low : a.getLsbD 0 with
  | false => exact (fBit_of_clear p low).trans BitVec.xor_zero.symm
  | true => exact fBit_of_set p low

/-- The reverse step in closed form: a shift, and `(p << 1) | 1` where the bit shifted out is set (R106). -/
theorem gBit_eq (p a : Word) : gBit p a = (a <<< 1) ^^^ (if a.getLsbD 31 then (p <<< 1) ||| 1 else 0) := by
  cases high : a.getLsbD 31 with
  | false => exact (gBit_of_clear p high).trans BitVec.xor_zero.symm
  | true =>
    rw [gBit_of_set p high, if_pos rfl, BitVec.shiftLeft_xor_distrib]
    ext i hi
    cases i <;> simp

/-- A word chosen by a bit is linear in the bit. -/
theorem ite_xor_word (c d : Bool) (q : Word) :
    (if (c ^^ d) then q else 0) = (if c then q else 0) ^^^ (if d then q else 0) := by
  cases c <;> cases d <;> simp

/-- The forward step is linear over GF(2) (R106). -/
theorem fBit_xor (p a b : Word) : fBit p (a ^^^ b) = fBit p a ^^^ fBit p b := by
  simp only [fBit_eq, BitVec.getLsbD_xor, ite_xor_word, BitVec.ushiftRight_xor_distrib]
  ac_rfl

/-- The reverse step is linear over GF(2) (R106). -/
theorem gBit_xor (p a b : Word) : gBit p (a ^^^ b) = gBit p a ^^^ gBit p b := by
  simp only [gBit_eq, BitVec.getLsbD_xor, ite_xor_word, BitVec.shiftLeft_xor_distrib]
  ac_rfl

/-- Repeated forward steps are linear. -/
theorem fBit_iterate_xor (p : Word) (n : Nat) (a b : Word) :
    (fBit p)^[n] (a ^^^ b) = (fBit p)^[n] a ^^^ (fBit p)^[n] b :=
  Function.Semiconj₂.iterate (fBit_xor p) n a b

/-- Repeated reverse steps are linear. -/
theorem gBit_iterate_xor (p : Word) (n : Nat) (a b : Word) :
    (gBit p)^[n] (a ^^^ b) = (gBit p)^[n] a ^^^ (gBit p)^[n] b :=
  Function.Semiconj₂.iterate (gBit_xor p) n a b

/-- While the bits that leave are clear, the forward steps are a plain shift. -/
theorem fBit_iterate_of_low_clear (p : Word) {n : Nat} {a : Word} (clear : ∀ j < n, a.getLsbD j = false) :
    (fBit p)^[n] a = a >>> n := by
  induction n generalizing a with
  | zero => simp
  | succ n ih =>
    rw [Function.iterate_succ_apply, fBit_of_clear p (clear 0 (by omega)), Nat.add_comm, BitVec.shiftRight_add]
    refine ih fun j hj => ?_
    rw [BitVec.getLsbD_ushiftRight]
    exact clear (1 + j) (by omega)

/-- While the bits that leave are clear, the reverse steps are a plain shift. -/
theorem gBit_iterate_of_high_clear (p : Word) {n : Nat} {a : Word} (clear : ∀ j < n, a.getLsbD (31 - j) = false) :
    (gBit p)^[n] a = a <<< n := by
  induction n generalizing a with
  | zero => simp
  | succ n ih =>
    rw [Function.iterate_succ_apply, gBit_of_clear p (clear 0 (by omega)), Nat.add_comm, BitVec.shiftLeft_add]
    refine ih fun j hj => ?_
    rw [BitVec.getLsbD_shiftLeft]
    by_cases room : j < 31
    · rw [Nat.sub_sub, Nat.add_comm j, clear (1 + j) (by omega), Bool.and_false]
    · simp [show 31 - j = 0 by omega]

/-- Settles O6, by the closed forms and linearity of the two steps. -/
theorem bitStepsAreLinear : Obligations.BitStepsAreLinear := fun p =>
  ⟨fun i => ⟨entry_ftTable p i, entry_rtTable p i⟩, gBit_eq p, fun a b => ⟨fBit_xor p a b, gBit_xor p a b⟩⟩

/-- Bit 31 after a forward step tells whether the polynomial was XORed in. -/
theorem fBit_getLsbD_top (p a : Word) : (fBit p a).getLsbD 31 = (a.getLsbD 0 && p.getLsbD 31) := by
  cases low : a.getLsbD 0 with
  | false => simp [fBit_of_clear p low]
  | true => simp [fBit_of_set p low]

/-- A shift down and back up loses bit 0 alone. -/
theorem ushiftRight_shiftLeft_one_or (a : Word) : (a >>> 1 <<< 1) ||| (if a.getLsbD 0 then 1 else 0) = a := by
  ext i hi
  cases i with
  | zero => cases h : a.getLsbD 0 <;> simp_all
  | succ i => cases a.getLsbD 0 <;> simp [Nat.add_comm 1, BitVec.getLsbD_eq_getElem hi]

/-- With bit 31 of the polynomial set, a reverse step undoes a forward step (R107). -/
theorem gBit_leftInverse_fBit {p : Word} (top : p.getLsbD 31 = true) : Function.LeftInverse (gBit p) (fBit p) := by
  intro a
  have restored := ushiftRight_shiftLeft_one_or a
  have sign := fBit_getLsbD_top p a
  rw [top, Bool.and_true] at sign
  cases low : a.getLsbD 0 with
  | false =>
    rw [low] at restored sign
    rw [gBit_of_clear p sign, fBit_of_clear p low]
    exact BitVec.or_zero.symm.trans restored
  | true =>
    rw [low] at restored sign
    rw [gBit_of_set p sign, fBit_of_set p low, BitVec.xor_assoc, BitVec.xor_self, BitVec.xor_zero]
    exact restored

/-- A left inverse on the finite set of words is a right inverse: a forward step undoes a reverse step (R107). -/
theorem fBit_leftInverse_gBit {p : Word} (top : p.getLsbD 31 = true) : Function.LeftInverse (fBit p) (gBit p) :=
  (gBit_leftInverse_fBit top).rightInverse_of_card_le le_rfl

/-- Settles O7: `g_p` undoes `f_p` by the bit 31 that `f_p` leaves, and finiteness gives the other order; with bit 31
of the polynomial clear, the word 0x80000000 is no value of `f_p`. -/
theorem reverseBitStepInvertsForward : Obligations.ReverseBitStepInvertsForward := by
  intro p
  refine ⟨fun top a => ⟨gBit_leftInverse_fBit top a, fBit_leftInverse_gBit top a⟩, fun clear => ?_⟩
  have never : ∀ a, (fBit p a).getLsbD 31 = false := fun a => by rw [fBit_getLsbD_top, clear, Bool.and_false]
  refine ⟨never, fun onto => ?_⟩
  obtain ⟨a, reached⟩ := onto 0x80000000
  have contra := never a
  rw [reached] at contra
  exact absurd contra (by decide)

end Sys2Proof.Machine
end

section
/-! The entries of the two tables: linearity in the index, the closed-form entries, and how the reverse table inverts
the forward one (R108, R109). -/

namespace Sys2Proof.Machine

/-- The forward entries are linear in the index (R108). -/
theorem ftEntry_xor (p : Word) (i j : Byte) : ftEntry p (i ^^^ j) = ftEntry p i ^^^ ftEntry p j := by
  simp only [ftEntry, BitVec.setWidth_xor, fBit_iterate_xor]

/-- The reverse entries are linear in the index (R108). -/
theorem rtEntry_xor (p : Word) (i j : Byte) : rtEntry p (i ^^^ j) = rtEntry p i ^^^ rtEntry p j := by
  simp only [rtEntry, BitVec.setWidth_xor, BitVec.shiftLeft_xor_distrib, gBit_iterate_xor]

/-- Only the last of the eight steps from 0x80 XORs the polynomial, and into 0 (R108). -/
theorem ftEntry_0x80 (p : Word) : ftEntry p 0x80 = p := by
  have seven : (fBit p)^[7] (0x80 : Word) = 1 := fBit_iterate_of_low_clear p (by decide)
  calc ftEntry p 0x80 = fBit p ((fBit p)^[7] 0x80) := Function.iterate_succ_apply' (fBit p) 7 0x80
    _ = fBit p 1 := by rw [seven]
    _ = p := by simp [fBit_eq]

/-- Only the last of the eight steps from `1 << 24` brings the polynomial in, and onto 0 (R108). -/
theorem rtEntry_0x01 (p : Word) : rtEntry p 0x01 = (p <<< 1) ||| 1 := by
  have seven : (gBit p)^[7] (0x01000000 : Word) = 0x80000000 := gBit_iterate_of_high_clear p (by decide)
  calc rtEntry p 0x01 = gBit p ((gBit p)^[7] 0x01000000) := Function.iterate_succ_apply' (gBit p) 7 0x01000000
    _ = gBit p 0x80000000 := by rw [seven]
    _ = (p <<< 1) ||| 1 := by simp [gBit_eq]

/-- Settles O8: the entries are linear in the index, which gives the two zeros, and have the two closed forms. -/
theorem tablesAreLinearInTheIndex : Obligations.TablesAreLinearInTheIndex := by
  intro p
  simp only [entry_ftTable, entry_rtTable]
  refine ⟨fun i j => ⟨ftEntry_xor p i j, rtEntry_xor p i j⟩, ?_, ?_, ftEntry_0x80 p, rtEntry_0x01 p⟩
  · simpa using ftEntry_xor p 0 0
  · simpa using rtEntry_xor p 0 0

/-- A shift up and back down by a byte masks the top byte off. -/
theorem shiftLeft_ushiftRight_byte (v : Word) : v <<< 8 >>> 8 = v &&& 0x00FFFFFF := by
  have mask : v.toNat &&& (0x00FFFFFF : Word).toNat = v.toNat % 2 ^ 24 := Nat.and_two_pow_sub_one_eq_mod _ 24
  refine BitVec.eq_of_toNat_eq ?_
  rw [BitVec.toNat_and, mask, BitVec.toNat_ushiftRight, BitVec.toNat_shiftLeft]
  omega

/-- A word is its low three bytes and its top byte. -/
theorem xor_highByte_shiftLeft (v : Word) : (v <<< 8 >>> 8) ^^^ ((highByte v).setWidth 32 <<< 24) = v := by
  ext i hi
  by_cases top : i < 24
  · simp [highByte, top, show 8 + i < 32 by omega]
  · have index : i - 24 < 8 ∧ 24 + (i - 24) = i := by omega
    simp [highByte, top, index, show ¬ 8 + i < 32 by omega, BitVec.getLsbD_eq_getElem hi]

/-- Eight reverse steps of a word: its low three bytes shift up, and its top byte selects a table entry. -/
theorem gBit_iterate_eight (p b : Word) : (gBit p)^[8] b = (b <<< 8) ^^^ rtEntry p (highByte b) := by
  have shifts : (gBit p)^[8] (b <<< 8 >>> 8) = b <<< 8 >>> 8 <<< 8 := gBit_iterate_of_high_clear p fun j hj => by
    rw [BitVec.getLsbD_ushiftRight]
    exact BitVec.getLsbD_of_ge _ _ (by omega)
  have keeps : b <<< 8 >>> 8 <<< 8 = b <<< 8 := by
    ext i hi
    by_cases low : i < 8
    · simp [low]
    · simp [low, show 8 + (i - 8) = i by omega, hi]
  conv_lhs => rw [← xor_highByte_shiftLeft b, gBit_iterate_xor, shifts, keeps]
  rfl

/-- With bit 31 of the polynomial set, eight reverse steps take the entry `FT[k]` back to `k`: the reverse entry at
its top byte is `FT[k] << 8` with `k` in the low byte (R109). -/
theorem rtEntry_highByte_ftEntry {p : Word} (top : p.getLsbD 31 = true) (k : Byte) :
    rtEntry p (highByte (ftEntry p k)) = (ftEntry p k <<< 8) ^^^ k.setWidth 32 := by
  have back : (gBit p)^[8] (ftEntry p k) = k.setWidth 32 := (gBit_leftInverse_fBit top).iterate 8 (k.setWidth 32)
  rw [← back, gBit_iterate_eight, ← BitVec.xor_assoc, BitVec.xor_self, BitVec.zero_xor]

/-- A byte put below a word is its low byte. -/
theorem lowByte_shiftLeft_xor (v : Word) (k : Byte) : lowByte ((v <<< 8) ^^^ k.setWidth 32) = k := by
  ext i hi
  simp [lowByte, hi]
  omega

/-- Shifting the byte out again leaves the low three bytes of the word. -/
theorem shiftLeft_xor_ushiftRight (v : Word) (k : Byte) :
    ((v <<< 8) ^^^ k.setWidth 32) >>> 8 = v &&& 0x00FFFFFF := by
  have gone : k.setWidth 32 >>> 8 = (0 : Word) := by
    ext i hi
    simp
  rw [BitVec.ushiftRight_xor_distrib, gone, shiftLeft_ushiftRight_byte]
  exact BitVec.xor_zero

/-- With bit 31 of the polynomial set, the low byte of the reverse entry gives back the index of the forward entry
(R109). -/
theorem lowByte_rtEntry_highByte_ftEntry {p : Word} (top : p.getLsbD 31 = true) (k : Byte) :
    lowByte (rtEntry p (highByte (ftEntry p k))) = k := by
  rw [rtEntry_highByte_ftEntry top, lowByte_shiftLeft_xor]

/-- With bit 31 of the polynomial set, the top bytes of the forward entries are a permutation of the bytes (R109). -/
theorem highByte_ftEntry_bijective {p : Word} (top : p.getLsbD 31 = true) :
    Function.Bijective fun k => highByte (ftEntry p k) :=
  have undone : Function.LeftInverse (fun j => lowByte (rtEntry p j)) (fun k => highByte (ftEntry p k)) :=
    lowByte_rtEntry_highByte_ftEntry top
  Finite.injective_iff_bijective.1 undone.injective

/-- Settles O9: each bullet of R109 reads the reverse entry at the top byte of a forward entry. -/
theorem reverseTableInvertsForwardTable : Obligations.ReverseTableInvertsForwardTable := by
  intro p top
  simp only [entry_ftTable, entry_rtTable]
  refine ⟨highByte_ftEntry_bijective top, fun k => ?_, ?_⟩
  · rw [rtEntry_highByte_ftEntry top, ← BitVec.xor_assoc, BitVec.xor_self, BitVec.zero_xor]
  · rintro _ k rfl
    refine ⟨lowByte_rtEntry_highByte_ftEntry top k, ?_⟩
    rw [rtEntry_highByte_ftEntry top, shiftLeft_xor_ushiftRight]

end Sys2Proof.Machine
end

section
/-! The BUILD command (R102 to R105). -/

namespace Sys2Proof.Machine

/-- BUILD completes from every state with the tables of POLY (R102, R104). -/
theorem exec_build (s : State) : exec .build s = .next (s.buildTables s.poly).complete := rfl

/-- Settles O4: the next state of BUILD is written out, and its entries are those of POLY. -/
theorem buildCompletesAndWritesTables : Obligations.BuildCompletesAndWritesTables := fun s =>
  ⟨_, exec_build s, fun i => ⟨entry_ftTable s.poly i, entry_rtTable s.poly i⟩, rfl, rfl, rfl⟩

/-- Settles O5: the tables that BUILD leaves are a function of POLY, which BUILD keeps. -/
theorem buildIsIdempotent : Obligations.BuildIsIdempotent := by
  intro s s' t t' same ran ran'
  rw [exec_build] at ran ran'
  cases ran
  cases ran'
  exact ⟨congrArg ftTable same, congrArg rtTable same, rfl⟩

end Sys2Proof.Machine
end

section
/-! The forward recurrence and the conventional bit-serial register (R120 to R129). -/

namespace Sys2Proof.Machine

/-- A word is its upper three bytes and its low byte. -/
theorem xor_lowByte (a : Word) : (a >>> 8 <<< 8) ^^^ (lowByte a).setWidth 32 = a := by
  ext i hi
  by_cases low : i < 8
  · simp [lowByte, low, BitVec.getLsbD_eq_getElem hi]
  · simp [low, show 8 + (i - 8) = i by omega, hi, BitVec.getLsbD_of_ge _ i (not_lt.1 low)]

/-- Nothing of a zero-extended byte is left after a shift down by a byte. -/
@[simp] theorem setWidth_ushiftRight_byte (c : Byte) : c.setWidth 32 >>> 8 = (0 : Word) := by
  ext i hi
  simp

/-- Eight forward steps of a word: its upper three bytes shift down, and its low byte selects a table entry. -/
theorem fBit_iterate_eight (p a : Word) : (fBit p)^[8] a = (a >>> 8) ^^^ ftEntry p (lowByte a) := by
  have shifts : (fBit p)^[8] (a >>> 8 <<< 8) = a >>> 8 <<< 8 >>> 8 := fBit_iterate_of_low_clear p fun j hj => by
    simp [hj]
  have keeps : a >>> 8 <<< 8 >>> 8 = a >>> 8 := by
    ext i hi
    simpa using BitVec.lt_of_getLsbD
  conv_lhs => rw [← xor_lowByte a, fBit_iterate_xor, shifts, keeps]
  rfl

/-- The table step XORs the byte into the low byte of the state and runs eight bit steps (R126). -/
theorem fstep_ftTable (p s : Word) (c : Byte) : fstep (ftTable p) s c = (fBit p)^[8] (s ^^^ c.setWidth 32) := by
  have upper : (s ^^^ c.setWidth 32) >>> 8 = s >>> 8 := by
    rw [BitVec.ushiftRight_xor_distrib, setWidth_ushiftRight_byte]
    exact BitVec.xor_zero
  rw [fBit_iterate_eight, upper, fstep, entry_ftTable]

/-- Settles O10: the upper bytes of the state shift down, and the table entry is eight steps of the low one. -/
theorem forwardStepIsEightBitSteps : Obligations.ForwardStepIsEightBitSteps := fstep_ftTable

/-- Settles O15, by induction on the first sequence. -/
theorem recurrenceComposes : Obligations.RecurrenceComposes := by
  intro ft x a b
  induction a generalizing x with
  | nil => rfl
  | cons c t ih => exact ih (fstep ft x c)

/-- Settles O17: eight steps shift the cleared low byte of `M32 ^ 0xFF` out, so the polynomial never comes in. -/
theorem checksumOfByteFF : Obligations.ChecksumOfByteFF := by
  intro p
  have shifts : (fBit p)^[8] (0xFFFFFF00 : Word) = 0xFFFFFF00 >>> 8 := fBit_iterate_of_low_clear p (by decide)
  calc crc32 (ftTable p) [0xFF] = fstep (ftTable p) M32 0xFF ^^^ M32 := rfl
    _ = (fBit p)^[8] (0xFFFFFF00 : Word) ^^^ M32 := by rw [fstep_ftTable]; rfl
    _ = 0xFF000000 := by rw [shifts]; rfl

/-- The lowest `n` bits of a word, the least significant first: the order the register takes a message in (R14). -/
def lowBits (n : Nat) (v : Word) : List Bool := (List.range n).map v.getLsbD

theorem lowBits_succ (n : Nat) (v : Word) : lowBits (n + 1) v = v.getLsbD 0 :: lowBits n (v >>> 1) := by
  simp [lowBits, List.range_succ_eq_map, Nat.add_comm]

theorem byteBits_eq_lowBits (c : Byte) : byteBits c = lowBits 8 (c.setWidth 32) := by
  simp [byteBits, lowBits, List.range_succ]

theorem flatMap_byteBits_leBytes (v : Word) : (leBytes v).flatMap byteBits = lowBits 32 v := by
  simp [leBytes, byteBits, lowBits, List.range_succ]

/-- The register takes one message bit of `v` where a bit step of `s ^ v` takes the low bit of the whole; the other
bits of `v` shift down beside it. -/
theorem fBit_xor_eq_registerBit (p s v : Word) : fBit p (s ^^^ v) = registerBit p s (v.getLsbD 0) ^^^ (v >>> 1) := by
  have register : registerBit p s (v.getLsbD 0) = (s >>> 1) ^^^ (if s.getLsbD 0 ^^ v.getLsbD 0 then p else 0) := by
    rw [registerBit]
    split <;> simp
  rw [fBit_eq, register, BitVec.getLsbD_xor, BitVec.ushiftRight_xor_distrib]
  ac_rfl

/-- `n` bit steps of `s ^ v`: the register has taken the low `n` bits of `v`, and the rest of `v` stands shifted down
beside it. -/
theorem fBit_iterate_xor_eq_foldl (p : Word) (n : Nat) (s v : Word) :
    (fBit p)^[n] (s ^^^ v) = (lowBits n v).foldl (registerBit p) s ^^^ (v >>> n) := by
  induction n generalizing s v with
  | zero => simp [lowBits]
  | succ n ih =>
    rw [Function.iterate_succ_apply, fBit_xor_eq_registerBit, ih, lowBits_succ, List.foldl_cons, ← BitVec.shiftRight_add,
      Nat.add_comm]

/-- A table step takes the eight message bits of the byte (R125). -/
theorem fstep_eq_foldl (p s : Word) (c : Byte) : fstep (ftTable p) s c = (byteBits c).foldl (registerBit p) s := by
  rw [fstep_ftTable, fBit_iterate_xor_eq_foldl, setWidth_ushiftRight_byte, byteBits_eq_lowBits]
  exact BitVec.xor_zero

/-- The recurrence under the table of `p` runs the bit-serial register over the message bits (R125). -/
theorem crcRaw_eq_foldl (p x : Word) (seq : List Byte) :
    crcRaw (ftTable p) x seq = (seq.flatMap byteBits).foldl (registerBit p) x := by
  induction seq generalizing x with
  | nil => rfl
  | cons c t ih => rw [crcRaw, ih, fstep_eq_foldl, List.flatMap_cons, List.foldl_append]

/-- Settles O11: the two recurrences agree from the same initial complement. -/
theorem checksumIsConventionalCrc : Obligations.ChecksumIsConventionalCrc := fun p seq => by
  rw [crc32, bitwiseCrc, crcRaw_eq_foldl]

/-- Running the four bytes of `v` from `x` is 32 bit steps of `x ^ v`: every bit of `v` is taken (R128). -/
theorem crcRaw_leBytes (p x v : Word) : crcRaw (ftTable p) x (leBytes v) = (fBit p)^[32] (x ^^^ v) := by
  rw [crcRaw_eq_foldl, flatMap_byteBits_leBytes, fBit_iterate_xor_eq_foldl, BitVec.ushiftRight_eq_zero le_rfl]
  exact BitVec.xor_zero.symm

/-- Settles O16: `x ^ v` is symmetric. -/
theorem fourByteSymmetry : Obligations.FourByteSymmetry := fun p x v =>
  ⟨crcRaw_leBytes p x v, by rw [crcRaw_leBytes, BitVec.xor_comm]⟩

end Sys2Proof.Machine
end

section
/-! The CRC command (R123, R124). -/

namespace Sys2Proof.Machine

/-- CRC on a written `DATA[0:LEN]` with `LEN <= MAXLEN` completes with the checksum in RESULT (R123). -/
theorem exec_crc_of_dataIs {s : State} {seq : List Byte} (fits : s.len.toNat ≤ s.maxlen.toNat) (reads : s.DataIs seq) :
    exec .crc s = .next (s.setResult (crc32 s.ft seq)).complete := by
  simp [exec, execCrc, State.lenTooLong, Nat.not_lt.2 fits, readUp_ok.2 (dataIs_iff_reads.1 reads)]

/-- Settles O12, by the success law of CRC. -/
theorem crcWritesTheChecksum : Obligations.CrcWritesTheChecksum := fun _ _ => exec_crc_of_dataIs

/-- Settles O13: an error writes ERR alone, and a success RESULT and ERR. -/
theorem crcFrame : Obligations.CrcFrame := by
  intro s t ran
  rw [exec] at ran
  obtain ⟨-, e⟩ | ⟨-, seq, -, e⟩ | ⟨-, j, -, -, e⟩ := execCrc_cases s <;> rw [e] at ran
  · rw [raiseCmdError_next ran]
  · cases ran
    rfl
  · cases ran

/-- With no byte between them the two complements cancel (R122, R124). -/
@[simp] theorem crc32_nil (ft : Table) : crc32 ft [] = 0 := BitVec.xor_self

/-- Settles O14: with LEN 0 the empty sequence is `DATA[0:LEN]`, and no MAXLEN is below 0. -/
theorem emptySequenceHasChecksumZero : Obligations.EmptySequenceHasChecksumZero := by
  refine ⟨crc32_nil, fun s empty => ?_⟩
  have zero : s.len.toNat = 0 := congrArg BitVec.toNat empty
  have reads : s.DataIs [] := ⟨zero.symm, fun j hj => by omega⟩
  rw [exec_crc_of_dataIs (by omega) reads, crc32_nil]
  rfl

end Sys2Proof.Machine
end

section
/-! The byte steps of the forge engine: the reverse step as bit steps, and how the two steps undo each other (R152 to
R154). -/

namespace Sys2Proof.Machine

/-- The reverse table step is eight reverse bit steps and the XOR of the byte (R154). -/
theorem rstep_rtTable (p b : Word) (c : Byte) : rstep (rtTable p) b c = (gBit p)^[8] b ^^^ c.setWidth 32 := by
  rw [gBit_iterate_eight, rstep, entry_rtTable]

/-- With bit 31 of the polynomial set, a reverse byte step undoes a forward one (R152). -/
theorem rstep_fstep {p : Word} (top : p.getLsbD 31 = true) (x : Word) (c : Byte) :
    rstep (rtTable p) (fstep (ftTable p) x c) c = x := by
  have undone : (gBit p)^[8] ((fBit p)^[8] (x ^^^ c.setWidth 32)) = x ^^^ c.setWidth 32 :=
    (gBit_leftInverse_fBit top).iterate 8 _
  rw [rstep_rtTable, fstep_ftTable, undone, xor_cancel_right]

/-- With bit 31 of the polynomial set, a forward byte step undoes a reverse one (R153). -/
theorem fstep_rstep {p : Word} (top : p.getLsbD 31 = true) (x : Word) (c : Byte) :
    fstep (ftTable p) (rstep (rtTable p) x c) c = x := by
  have undone : (fBit p)^[8] ((gBit p)^[8] x) = x := (fBit_leftInverse_gBit top).iterate 8 x
  rw [fstep_ftTable, rstep_rtTable, xor_cancel_right, undone]

/-- Settles O18: eight reverse bit steps shift the word up and look its top byte up. -/
theorem reverseStepIsEightBitSteps : Obligations.ReverseStepIsEightBitSteps := rstep_rtTable

/-- Settles O19: the eight bit steps of each byte step undo those of the other, and the byte cancels. -/
theorem byteStepsUndoEachOther : Obligations.ByteStepsUndoEachOther := by
  rintro s ⟨hft, hrt⟩ top x c
  rw [hft, hrt]
  exact ⟨rstep_fstep top x c, fstep_rstep top x c⟩

end Sys2Proof.Machine
end

section
/-! The forged sequence: the bytes around the patch, and the one patch that reaches a target (R155 to R157). -/

namespace Sys2Proof.Machine

/-- The spliced sequence keeps the bytes before the position (R156). -/
theorem splice_take {seq : List Byte} {pos : Nat} (patch : Word) (hp : pos ≤ seq.length) :
    (splice seq pos patch).take pos = seq.take pos := by
  rw [splice, List.append_assoc, List.take_left' (List.length_take_of_le hp)]

/-- The spliced sequence keeps the bytes from the position on, behind the patch (R156). -/
theorem splice_drop {seq : List Byte} {pos : Nat} (patch : Word) (hp : pos ≤ seq.length) :
    (splice seq pos patch).drop (pos + 4) = seq.drop pos := by
  rw [splice, List.drop_left']
  rw [List.length_append, List.length_take_of_le hp, leBytes_length]

/-- Settles O25: the forged sequence is a spliced one, whatever its patch. -/
theorem forgePreservesPrefixAndSuffix : Obligations.ForgePreservesPrefixAndSuffix := fun ft rt w _ _ hp =>
  ⟨forgeOut_length ft rt w hp, splice_take _ hp, splice_drop _ hp⟩

/-- The forward recurrence reaches `b` from the value of the reverse recurrence from `b`, and from no other, where the
polynomial has bit 31 set (R152, R153). -/
theorem crcRaw_eq_iff {p : Word} (top : p.getLsbD 31 = true) (x b : Word) (seq : List Byte) :
    crcRaw (ftTable p) x seq = b ↔ x = backRun (rtTable p) b seq := by
  induction seq generalizing x with
  | nil => exact Iff.rfl
  | cons c t ih =>
    rw [crcRaw, backRun, ih]
    constructor
    · intro h; rw [← h, rstep_fstep top]
    · rintro rfl; rw [fstep_rstep top]

/-- The checksum of a spliced sequence: the four bytes of the patch may change places with those of the state they are
fed to, so that it is the patch that runs forward (R122, R128). -/
theorem crc32_splice (p : Word) (seq : List Byte) (pos : Nat) (patch : Word) :
    crc32 (ftTable p) (splice seq pos patch) =
      crcRaw (ftTable p) (crcRaw (ftTable p) patch (leBytes (crcRaw (ftTable p) M32 (seq.take pos)))) (seq.drop pos)
        ^^^ M32 := by
  rw [crc32, splice, recurrenceComposes, recurrenceComposes, crcRaw_leBytes, crcRaw_leBytes, BitVec.xor_comm patch]

/-- With bit 31 of the polynomial set, the patch of R144 and no other reaches the target (R157). -/
theorem crc32_splice_eq_iff {p : Word} (top : p.getLsbD 31 = true) (seq : List Byte) (pos : Nat) (w y : Word) :
    crc32 (ftTable p) (splice seq pos y) = w ↔ y = forgePatch (ftTable p) (rtTable p) w seq pos := by
  rw [crc32_splice, xor_eq_iff_left_eq, crcRaw_eq_iff top, crcRaw_eq_iff top]
  rfl

/-- Settles O29, by running the recurrence back from the target over the suffix and over the bytes of `fwd`. -/
theorem patchIsUnique : Obligations.PatchIsUnique := by
  rintro s ⟨hft, hrt⟩ top seq pos w - y
  rw [hft, hrt]
  exact crc32_splice_eq_iff top seq pos w y

/-- With bit 31 of the polynomial set, the forged sequence has the wanted checksum (R155). -/
theorem crc32_forgeOut {p : Word} (top : p.getLsbD 31 = true) (w : Word) (seq : List Byte) (pos : Nat) :
    crc32 (ftTable p) (forgeOut (ftTable p) (rtTable p) w seq pos) = w :=
  (crc32_splice_eq_iff top seq pos w _).2 rfl

end Sys2Proof.Machine
end

section
/-! The forge commands: what they answer, their frame, and the bytes of OUT (R144 to R149, R155, R156, R159). -/

namespace Sys2Proof.Machine

/-- OUTLEN as the commands store it is `LEN + 4` on words. -/
theorem ofNat_toNat_add_four (n : Word) : BitVec.ofNat 32 (n.toNat + 4) = n + 4 := by
  rw [BitVec.ofNat_add, BitVec.ofNat_toNat, BitVec.setWidth_eq]
  rfl

/-- A forge command whose checks pass, on a written `DATA[0:LEN]`, completes with the forged sequence (R146, R147). -/
theorem exec_forge_of_dataIs {i : Instr} {s : State} {seq : List Byte} (isForge : IsForge i)
    (fits : s.len.toNat ≤ s.maxlen.toNat) (inside : forgePos i s ≤ s.len.toNat) (reads : s.DataIs seq) :
    exec i s = .next (s.setForged (forgeOut s.ft s.rt s.wanted seq (forgePos i s))
      (forgePatch s.ft s.rt s.wanted seq (forgePos i s)) (s.len + 4)).complete := by
  rw [exec_eq_forgeAt isForge fits inside, forgeAt_next (dataIs_iff_reads.1 reads) inside, ofNat_toNat_add_four]

/-- Settles O20, by the success law of the forge commands at POS. -/
theorem forgeWritesTheSplicedSequence : Obligations.ForgeWritesTheSplicedSequence := fun _ _ fits inside reads =>
  exec_forge_of_dataIs (.inl rfl) fits inside reads

/-- At the end of the sequence there is no suffix: the patch is appended (R147). -/
theorem splice_length (seq : List Byte) (patch : Word) : splice seq seq.length patch = seq ++ leBytes patch := by
  simp [splice]

/-- Settles O21, by the success law of the forge commands at LEN, which is the length of the sequence. -/
theorem forgeAppendWritesAtTheEnd : Obligations.ForgeAppendWritesAtTheEnd := by
  intro s seq fits reads
  have atEnd : forgePos .forgeAppend s = seq.length := reads.1.symm
  rw [exec_forge_of_dataIs (.inr rfl) fits (Nat.le_refl _) reads, atEnd, forgeOut, splice_length]
  rfl

/-- Settles O26: each end is a position of the success law, and the phase at that end runs over no byte. -/
theorem bothEndPositionsAreLegal : Obligations.BothEndPositionsAreLegal := by
  intro s seq fits reads
  have completes (inside : s.pos.toNat ≤ s.len.toNat) : ∃ t, exec .forge s = .next t ∧ t.err = 0 :=
    ⟨_, exec_forge_of_dataIs (.inl rfl) fits inside reads, rfl⟩
  constructor
  · intro start
    have zero : s.pos.toNat = 0 := congrArg BitVec.toNat start
    refine ⟨completes (by omega), ?_⟩
    rw [zero, List.take_zero]
    rfl
  · intro atEnd
    refine ⟨completes (by rw [atEnd]), ?_⟩
    rw [atEnd, ← reads.1, List.drop_length]
    rfl

/-- Settles O27: the length check is the same, the position check passes, and both commands then work at LEN. -/
theorem forgeAtLenIsForgeAppend : Obligations.ForgeAtLenIsForgeAppend := by
  intro s atEnd
  have inside : s.posPastEnd = false := by simp [State.posPastEnd, atEnd]
  rw [exec, exec, execForge, execForgeAppend, inside, atEnd]
  rfl

/-- Settles O34: of the three things FORGE can do behind the length check, only the position error writes code 1. -/
theorem invalidArgumentExactlyPastTheEnd : Obligations.InvalidArgumentExactlyPastTheEnd := by
  intro s fits
  rw [exec]
  obtain ⟨tooLong, -⟩ | ⟨-, past, e⟩ | ⟨-, inside, e⟩ := execForge_cases s
  · omega
  · exact ⟨fun _ => past, fun _ => e⟩
  · refine ⟨fun raised => ?_, fun past => by omega⟩
    rw [e] at raised
    obtain ⟨seq, -, e⟩ | ⟨j, -, -, e⟩ := forgeAt_cases s inside <;> rw [e] at raised
    · exact absurd (congrArg State.err (Host.Outcome.next.inj raised)) (by simp)
    · cases raised

/-- Everything a forge command that completes can do: an error in ERR alone, or its checks passed and the forged
sequence of a written `DATA[0:LEN]` (R146, R147, R172). -/
theorem exec_forge_next {i : Instr} {s t : State} (isForge : IsForge i) (ran : exec i s = .next t) :
    (∃ code, code ≠ .ok ∧ t = { s with err := errBits code }) ∨
    (s.len.toNat ≤ s.maxlen.toNat ∧ forgePos i s ≤ s.len.toNat ∧ ∃ seq, s.DataIs seq ∧
      t = (s.setForged (forgeOut s.ft s.rt s.wanted seq (forgePos i s))
        (forgePatch s.ft s.rt s.wanted seq (forgePos i s)) (s.len + 4)).complete) := by
  rw [← commandWrite_encode] at ran
  cases commandWrite_move ran with
  | error failed => exact .inl ⟨_, failed, rfl⟩
  | build word => cases encode_injective word; simp [IsForge] at isForge
  | crc word => cases encode_injective word; simp [IsForge] at isForge
  | forge j _ word fits inside seq reads =>
    cases encode_injective word
    exact .inr ⟨fits, inside, seq, reads, by rw [ofNat_toNat_add_four]⟩

/-- Below its end the forged sequence reads back from the buffer it was written to (R146). -/
theorem read_forgeOut_below (m : Memory) (ft rt : Table) (w : Word) {seq : List Byte} {pos j : Nat}
    (hp : pos ≤ seq.length) (hj : j < seq.length + 4) :
    (m.writeBytes 0 (forgeOut ft rt w seq pos)).read j = (forgeOut ft rt w seq pos)[j]? := by
  rw [Memory.read_writeBytes, forgeOut_length ft rt w hp, if_pos ⟨Nat.zero_le j, by omega⟩, Nat.sub_zero]

/-- From its end on the buffer reads as before (R146, R206). -/
theorem read_forgeOut_above (m : Memory) (ft rt : Table) (w : Word) {seq : List Byte} {pos j : Nat}
    (hp : pos ≤ seq.length) (hj : seq.length + 4 ≤ j) :
    (m.writeBytes 0 (forgeOut ft rt w seq pos)).read j = m.read j := by
  rw [Memory.read_writeBytes, forgeOut_length ft rt w hp, if_neg (by omega)]

/-- Settles O22: an error writes ERR alone, and a success stores the forged sequence from `OUT[0]` on. -/
theorem forgeFrame : Obligations.ForgeFrame := by
  intro i s t isForge ran
  obtain ⟨code, -, rfl⟩ | ⟨-, inside, seq, ⟨hlen, -⟩, rfl⟩ := exec_forge_next isForge ran
  · exact ⟨rfl, fun _ _ => rfl, fun _ => rfl⟩
  · exact ⟨rfl, fun j hj => read_forgeOut_above s.out _ _ _ (by omega) (by omega), fun _ => rfl⟩

/-- A byte before the position keeps its index in the spliced sequence (R144). -/
theorem splice_getElem?_before {seq : List Byte} {pos j : Nat} (patch : Word) (hp : pos ≤ seq.length) (hj : j < pos) :
    (splice seq pos patch)[j]? = seq[j]? := by
  rw [← List.getElem?_take_of_lt hj, splice_take patch hp, List.getElem?_take_of_lt hj]

/-- A byte from the position on stands four places further on in the spliced sequence (R144). -/
theorem splice_getElem?_behind {seq : List Byte} {pos j : Nat} (patch : Word) (hp : pos ≤ seq.length)
    (hj : pos ≤ j) : (splice seq pos patch)[j + 4]? = seq[j]? := by
  obtain ⟨k, rfl⟩ := Nat.exists_eq_add_of_le hj
  rw [Nat.add_right_comm, ← List.getElem?_drop, splice_drop patch hp, List.getElem?_drop]

/-- Settles O23: OUT below `LEN + 4` reads as the spliced sequence, part by part. -/
theorem forgedBytesOfOut : Obligations.ForgedBytesOfOut := by
  intro i s t isForge ran ok
  obtain ⟨inside, seq, ⟨hlen, data⟩, rfl⟩ := exec_forged isForge ran ok
  have hp : forgePos i s ≤ seq.length := by omega
  simp only [complete_out, setForged_out, complete_patch, setForged_patch]
  refine ⟨fun j hj => ?_, fun k hk => ?_, fun j hj hjl => ?_, fun j hj => ?_⟩
  · rw [read_forgeOut_below _ _ _ _ hp (by omega), forgeOut, splice_getElem?_before _ hp hj, data j (by omega)]
  · rw [read_forgeOut_below _ _ _ _ hp (by omega), forgeOut, splice_getElem?_patch _ hp hk]
  · rw [read_forgeOut_below _ _ _ _ hp (by omega), forgeOut, splice_getElem?_behind _ hp hj, data j hjl]
  · rw [read_forgeOut_above _ _ _ _ hp (by omega)]

/-- States that agree on LEN and on `DATA[0:LEN]` hold the same sequence. -/
theorem dataIs_unique {s s' : State} {seq seq' : List Byte} (sameLen : s.len = s'.len)
    (sameData : ∀ j, j < s.len.toNat → s.data.read j = s'.data.read j) (reads : s.DataIs seq)
    (reads' : s'.DataIs seq') : seq = seq' := by
  have moved : s'.DataIs seq := by
    rw [State.DataIs, ← sameLen]
    exact ⟨reads.1, fun j hj => (sameData j hj).symm.trans (reads.2 j hj)⟩
  exact reads_unique (dataIs_iff_reads.1 moved) (dataIs_iff_reads.1 reads')

/-- Settles O31: both commands forge the same sequence with the same tables. -/
theorem forgeDependsOnItsOperandsAlone : Obligations.ForgeDependsOnItsOperandsAlone := by
  rintro i1 i2 s1 s2 t1 t2 isForge1 isForge2 ⟨hft1, hrt1⟩ ⟨hft2, hrt2⟩ sameTpoly sameWanted sameLen samePos sameData
    ran1 ran2 ok1 ok2
  obtain ⟨inside, seq, reads, rfl⟩ := exec_forged isForge1 ran1 ok1
  obtain ⟨-, seq', reads', rfl⟩ := exec_forged isForge2 ran2 ok2
  obtain rfl := dataIs_unique sameLen sameData reads reads'
  have sameFt : s1.ft = s2.ft := by rw [hft1, hft2, sameTpoly]
  have sameRt : s1.rt = s2.rt := by rw [hrt1, hrt2, sameTpoly]
  have hp : forgePos i1 s1 ≤ seq.length := by rw [reads.1]; exact inside
  rw [← sameFt, ← sameRt, ← sameWanted, ← sameLen, ← samePos]
  refine ⟨rfl, rfl, fun j hj => ?_⟩
  rw [← reads.1] at hj
  exact (read_forgeOut_below s1.out _ _ _ hp hj).trans (read_forgeOut_below s2.out _ _ _ hp hj).symm

/-- Settles O28: the forged sequence has the wanted checksum, and it is what DATA of the second state holds: OUTLEN is
its length, which a legal MAXLEN keeps from wrapping. -/
theorem forgedSequenceHasTheWantedChecksum : Obligations.ForgedSequenceHasTheWantedChecksum := by
  rintro s ⟨hft, hrt⟩ top
  have roundTrip (w seq pos) : crc32 s.ft (forgeOut s.ft s.rt w seq pos) = w := by
    rw [hft, hrt]; exact crc32_forgeOut top w seq pos
  refine ⟨fun w seq pos _ => roundTrip w seq pos, fun inv i t u isForge ran ok sameFt hlen fitsU copied => ?_⟩
  obtain ⟨code, failed, rfl⟩ | ⟨fits, inside, seq, reads, rfl⟩ := exec_forge_next isForge ran
  · exact absurd (errBits_eq_zero_iff.1 ok) failed
  obtain ⟨-, hmax, -⟩ := maxlenLegal_iff.1 inv.maxlen
  have outlen : (s.len + 4).toNat = seq.length + 4 := by
    rw [← ofNat_toNat_add_four, BitVec.toNat_ofNat, reads.1]; omega
  simp only [complete_outlen, setForged_outlen, complete_out, setForged_out] at hlen copied
  rw [outlen] at copied
  have hp : forgePos i s ≤ seq.length := by rw [reads.1]; exact inside
  have readsU : u.DataIs (forgeOut s.ft s.rt s.wanted seq (forgePos i s)) := by
    rw [State.DataIs, hlen, outlen, forgeOut_length _ _ _ hp]
    exact ⟨rfl, fun j hj => (copied j hj).trans (read_forgeOut_below s.out _ _ _ hp hj)⟩
  refine ⟨_, exec_crc_of_dataIs fitsU readsU, ?_, rfl⟩
  rw [complete_result, setResult_result, sameFt]
  exact roundTrip s.wanted seq (forgePos i s)

end Sys2Proof.Machine
end

section
/-! What is lost where bit 31 of the polynomial is clear (R158). -/

namespace Sys2Proof.Machine

/-- With bit 31 of the polynomial clear, two words have the same forward step: it is not onto the finite set of words
(R107). -/
theorem fBit_not_injective {p : Word} (clear : p.getLsbD 31 = false) : ¬ Function.Injective (fBit p) := by
  obtain ⟨-, notOnto⟩ := (reverseBitStepInvertsForward p).2 clear
  exact mt Finite.injective_iff_surjective.1 notOnto

/-- Nor can any later steps tell the two words apart. -/
theorem fBit_iterate_xor_not_injective {p : Word} (clear : p.getLsbD 31 = false) (n : Nat) (v : Word) :
    ¬ Function.Injective fun a => (fBit p)^[n + 1] (a ^^^ v) := by
  intro inj
  refine fBit_not_injective clear fun a b same => ?_
  have masked : a ^^^ v = b ^^^ v := inj (by
    simp only [xor_cancel_right, Function.iterate_succ_apply, same])
  exact (BitVec.xor_left_inj v).1 masked

/-- With bit 31 of the polynomial clear, a forward byte step loses a word. -/
theorem fstep_not_injective {p : Word} (clear : p.getLsbD 31 = false) (c : Byte) :
    ¬ Function.Injective fun a => fstep (ftTable p) a c := by
  simpa only [fstep_ftTable] using fBit_iterate_xor_not_injective clear 7 (c.setWidth 32)

/-- With bit 31 of the polynomial clear, two patches have the same checksum at any position, whatever the sequence. -/
theorem crc32_splice_not_injective {p : Word} (clear : p.getLsbD 31 = false) (seq : List Byte) (pos : Nat) :
    ¬ Function.Injective fun y => crc32 (ftTable p) (splice seq pos y) := by
  intro inj
  refine fBit_iterate_xor_not_injective clear 31 (crcRaw (ftTable p) M32 (seq.take pos)) fun y z same => inj ?_
  simp only [crc32_splice, crcRaw_leBytes]
  exact congrArg (fun a => crcRaw (ftTable p) a (seq.drop pos) ^^^ M32) same

/-- A forge command in a state that is ready for it has passed its checks and reads a written sequence. -/
theorem Ready.of_isForge {i : Instr} {s : State} (isForge : IsForge i) (ready : Ready i s) :
    s.len.toNat ≤ s.maxlen.toNat ∧ forgePos i s ≤ s.len.toNat ∧ ∃ seq, s.DataIs seq := by
  have holds (written : ∀ j, j < s.len.toNat → s.data.read j ≠ none) : ∃ seq, s.DataIs seq := by
    simp only [dataIs_iff_reads]
    exact exists_reads fun k hk => by rw [Nat.zero_add]; exact written k hk
  obtain rfl | rfl := isForge
  · obtain ⟨fits, inside, written⟩ := ready
    exact ⟨fits, inside, holds written⟩
  · obtain ⟨fits, written⟩ := ready
    exact ⟨fits, Nat.le_refl _, holds written⟩

/-- Settles O30: the commands complete whatever TPOLY is; and a byte step and the checksum of a patch, which are not
injective, are not onto the finite set of words and have no inverse. -/
theorem irreversiblePolynomialHasTargetsWithoutPatch : Obligations.IrreversiblePolynomialHasTargetsWithoutPatch := by
  rintro s ⟨hft, hrt⟩ irreversible
  have clear : s.tpoly.getLsbD 31 = false := Bool.eq_false_of_not_eq_true irreversible
  rw [hft]
  refine ⟨fun i isForge ready => ?_, fun seq pos => ?_, ?_, ?_⟩
  · obtain ⟨fits, inside, seq, reads⟩ := ready.of_isForge isForge
    exact ⟨_, exec_forge_of_dataIs isForge fits inside reads, rfl⟩
  · by_contra! reached
    exact crc32_splice_not_injective clear seq pos (Finite.injective_iff_surjective.2 reached)
  · by_contra! undone
    exact fstep_not_injective clear 0 (Finite.injective_iff_surjective.2 fun x => ⟨rstep s.rt x 0, undone x 0⟩)
  · by_contra! undone
    have inverse : Function.LeftInverse (fun x => rstep s.rt x 0) fun x => fstep (ftTable s.tpoly) x 0 :=
      fun x => undone x 0
    exact fstep_not_injective clear 0 inverse.injective

end Sys2Proof.Machine
end

section
/-! Which error a CMD write reports, and which commands complete without one (R172, R173, R175, R177). -/

namespace Sys2Proof.Machine

/-- BUILD has no check (R102). -/
theorem errAfter_build (s : State) : errAfter (encode .build) s = .ok := by
  simp only [errAfter, decode_encode]

/-- The checks of the commands that read DATA, in the order of R177: CRC and FORGE.APPEND work at a position that
passes the second. -/
theorem errAfter_reads {i : Instr} (reads : i ≠ .build) (s : State) :
    errAfter (encode i) s = if s.maxlen.toNat < s.len.toNat then .lengthOutOfRange
      else if s.len.toNat < forgePos i s then .invalidArgument else .ok := by
  cases i with
  | build => exact absurd rfl reads
  | crc | forgeAppend => simp [errAfter, decode_encode, forgePos]
  | forge =>
    simp only [errAfter, decode_encode]
    rfl

/-- A command whose checks pass reports no error (R173). -/
theorem errAfter_of_checks_pass (i : Instr) {s : State} (fits : s.len.toNat ≤ s.maxlen.toNat)
    (inside : forgePos i s ≤ s.len.toNat) : errAfter (encode i) s = .ok := by
  by_cases build : i = .build
  · rw [build, errAfter_build]
  · rw [errAfter_reads build, if_neg (Nat.not_lt.2 fits), if_neg (Nat.not_lt.2 inside)]

/-- The error is that of the length exactly when LEN is too long (R175): it is the first of the two checks. -/
theorem errAfter_reads_eq_lengthOutOfRange_iff {i : Instr} (reads : i ≠ .build) (s : State) :
    errAfter (encode i) s = .lengthOutOfRange ↔ s.maxlen.toNat < s.len.toNat := by
  rw [errAfter_reads reads]
  split_ifs with tooLong past <;> simp [tooLong]

/-- A CMD write to which an error applies completes: it meets no model fault (R177). -/
theorem commandWrite_next_of_failed {w : Word} {s : State} (failed : errAfter w s ≠ .ok) :
    ∃ t, commandWrite w s = .next t := by
  cases decoded : decode w with
  | illegal why => exact ⟨_, commandWrite_illegal decoded s⟩
  | command i =>
    obtain rfl := eq_encode_of_decode decoded
    have reads : i ≠ .build := by
      rintro rfl
      exact failed (errAfter_build s)
    rw [commandWrite_encode]
    refine exec_next_of_check_fails reads ?_
    by_contra! passed
    obtain ⟨fits, inside⟩ := passed
    exact failed (errAfter_of_checks_pass i fits inside)

/-- A CMD write that completes has written the error that applies and nothing else (R172), or none applied and the
command ends with ERR 0 (R173). -/
theorem CommandMove.error_or_ok {w : Word} {s t : State} (move : CommandMove w s t) :
    (errAfter w s ≠ .ok ∧ t = { s with err := errBits (errAfter w s) }) ∨ (errAfter w s = .ok ∧ t.err = 0) := by
  cases move with
  | error failed => exact .inl ⟨failed, rfl⟩
  | build word => exact .inr ⟨word ▸ errAfter_build s, rfl⟩
  | crc word fits => exact .inr ⟨word ▸ errAfter_of_checks_pass .crc fits (Nat.le_refl _), rfl⟩
  | forge i _ word fits inside => exact .inr ⟨word ▸ errAfter_of_checks_pass i fits inside, rfl⟩

/-- A CMD write to which an error applies changes ERR alone (R172, R177). -/
theorem commandWrite_of_failed {w : Word} {s : State} (failed : errAfter w s ≠ .ok) :
    commandWrite w s = .next { s with err := errBits (errAfter w s) } := by
  obtain ⟨t, ran⟩ := commandWrite_next_of_failed failed
  obtain ⟨-, rfl⟩ | ⟨ok, -⟩ := (commandWrite_move ran).error_or_ok
  · exact ran
  · exact absurd ok failed

/-- ERR after a CMD write that completes is the code of the error that applies, 0 for none (R171). -/
theorem CommandMove.err {w : Word} {s t : State} (move : CommandMove w s t) : t.err = errBits (errAfter w s) := by
  obtain ⟨-, rfl⟩ | ⟨ok, zero⟩ := move.error_or_ok
  · rfl
  · rw [ok, zero]
    rfl

theorem errBits_eq_three_iff {code : ErrCode} : errBits code = 3 ↔ code = .lengthOutOfRange := by
  cases code <;> decide

/-- Settles O35, by the error move and by ERR after a CMD write. -/
theorem firstErrorIsReported : Obligations.FirstErrorIsReported := by
  intro w s
  refine ⟨commandWrite_of_failed, fun ok t ran => ?_⟩
  rw [(commandWrite_move ran).err, ok]
  rfl

/-- Settles O36: a nonzero ERR leaves only the error move. -/
theorem failedCommandChangesOnlyErr : Obligations.FailedCommandChangesOnlyErr := by
  intro w s t ran nonzero
  obtain error | ⟨-, zero⟩ := (commandWrite_move ran).error_or_ok
  · exact error
  · exact absurd zero nonzero

/-- Settles O38, by the success law of each command; CRC asks of the state what FORGE.APPEND asks. -/
theorem readyCommandsComplete : Obligations.ReadyCommandsComplete := by
  intro i s ready
  by_cases build : i = .build
  · exact ⟨_, build ▸ exec_build s, rfl⟩
  obtain isForge | rfl := isForge_or_crc build
  · obtain ⟨fits, inside, seq, reads⟩ := ready.of_isForge isForge
    exact ⟨_, exec_forge_of_dataIs isForge fits inside reads, rfl⟩
  · have readyAppend : Ready .forgeAppend s := ready
    obtain ⟨fits, -, seq, reads⟩ := readyAppend.of_isForge (.inr rfl)
    exact ⟨_, exec_crc_of_dataIs fits reads, rfl⟩

/-- Settles O33: for the commands that read DATA, code 3 is the error of the length, the first of their checks; BUILD
ends with ERR 0, and its next state is written out without LEN. -/
theorem lengthOutOfRange : Obligations.LengthOutOfRange := by
  constructor
  · intro s i isReader
    have reads : i ≠ .build := by
      rintro rfl
      simp at isReader
    rw [← errAfter_reads_eq_lengthOutOfRange_iff reads, ← commandWrite_encode]
    constructor
    · intro ran
      exact errBits_eq_three_iff.1 (commandWrite_move ran).err.symm
    · intro reported
      have ran := commandWrite_of_failed (w := encode i) (s := s) (by rw [reported]; decide)
      rwa [reported] at ran
  · intro s t ran
    rw [exec_build] at ran
    cases ran
    exact ⟨by simp, fun n => exec_build _⟩

end Sys2Proof.Machine
end

section
/-! How a CMD write ends, and what a POLY write leaves alone (R22, R74, R204, R212). -/

namespace Sys2Proof.Machine

/-- Settles O39: a word that encodes no command completes with its error, and a command completes or faults at an
unwritten byte. -/
theorem everyCommandEnds : Obligations.EveryCommandEnds := by
  intro w s
  cases decoded : decode w with
  | illegal why => exact .inl ⟨_, commandWrite_illegal decoded s⟩
  | command i =>
    obtain rfl := eq_encode_of_decode decoded
    rw [commandWrite_encode]
    exact exec_next_or_fault i s

/-- The commands that read DATA do not read POLY, and keep it (R22, R204): the checks, the sequence and the tables they
work with are the same under any POLY. -/
theorem exec_next_withPoly {i : Instr} {s t : State} (p : Word) (reads : i ≠ .build) (ran : exec i s = .next t) :
    exec i { s with poly := p } = .next { t with poly := p } := by
  rw [← commandWrite_encode] at ran
  cases commandWrite_move ran with
  | error failed =>
    rw [← commandWrite_encode]
    exact commandWrite_of_failed (s := { s with poly := p }) failed
  | build word => exact absurd (encode_injective word) reads
  | crc word fits seq data =>
    cases encode_injective word
    exact exec_crc_of_dataIs (s := { s with poly := p }) fits data
  | forge j isForge word fits inside seq data =>
    cases encode_injective word
    rw [ofNat_toNat_add_four]
    have samePos : forgePos i { s with poly := p } = forgePos i s := by cases i <;> rfl
    have forged := exec_forge_of_dataIs (s := { s with poly := p }) isForge fits (samePos ▸ inside) data
    rwa [samePos] at forged

/-- Settles O54: the write stores its value in POLY, which the other commands do not read. -/
theorem polyWriteLeavesCommandsAlone : Obligations.PolyWriteLeavesCommandsAlone := by
  intro s p
  exact ⟨memWrite_rw s (r := .poly) p rfl rfl, fun _ reads _ => exec_next_withPoly p reads⟩

end Sys2Proof.Machine
end
